-- ==== Sys2Proof/Word.lean ====
section
/-! DEFINITION. The byte, the only unit the block stores or moves (spec 20_memory.md R29), and the
sum of a byte sequence as a natural number (00_scope.md R8). -/

namespace Sys2Proof

/-- A byte: an unsigned integer 0 to 255 (00_scope.md R8). -/
abbrev Byte := BitVec 8

/-- A sequence of bytes, element 0 first (00_scope.md R8). -/
abbrev Bytes := List Byte

end Sys2Proof
end

