-- ==== Sys2Proof/Config.lean ====
section
/-! DEFINITION. The implementation parameters of 00_scope.md R7. The fixed ones are constants here;
the three marked OPEN are the record `Params`, an argument of the model that State carries and that no
step writes (log entry 2). The block leaves no computed value open, so there is no free value. -/

namespace Sys2Proof

namespace Config

/-- `RXCAP`: non-zero stream bytes the decoder buffer holds; the delimiter is never stored (R7, D1). -/
def rxCap : Nat := 13

/-- `MAX_PAYLOAD`: the largest payload `ENC.FRAME` accepts, `RXCAP - 2` (R7, D7). -/
def maxPayload : Nat := 11

/-- `ID_BYTES`: bytes of id prefix at the head of a payload (R7). -/
def idBytes : Nat := 2

/-- `CAN_DATA_MAX`: the largest CAN data field in bytes (R7). -/
def canDataMax : Nat := 8

/-! The widths stand in types, so they are `abbrev`s, which unfold by themselves, and `simp` turns them into
their numbers (before `omega`, which does not unfold them). -/

/-- `OPC_W`: width in bits of the opcode field of a standard id (R7). -/
@[simp] abbrev opcW : Nat := 4

/-- `STD_W`: width of a standard CAN id (R7). -/
@[simp] abbrev stdW : Nat := 11

/-- `EXT_W`: width of an extended CAN id (R7). -/
@[simp] abbrev extW : Nat := 29

/-- `TAG_W`: width of the tag field of an extended id, bits 28 to 24 (R7). -/
@[simp] abbrev tagW : Nat := 5

/-- `ARG_W`: width of the argument field of an extended id, bits 23 to 0 (R7). -/
@[simp] abbrev argW : Nat := 24

/-- `SLOT_MAX`: the largest short id the PanelTable assigns (R7, context only); the lookup input
`pt_present` has one bit for each short id 0 to `SLOT_MAX`. -/
@[simp] abbrev slotMax : Nat := 63

/-- The longest sequence the port `enc_in` carries (10_state.md R19). -/
def encInMax : Nat := 255

/-- `HOST_SENTINEL`: the value of payload byte 0 that marks a host command (R7). -/
def hostSentinel : Byte := 0xFF

/-- The largest serial id that is a standard CAN id (30_encoding.md R53). -/
def serCanMax : Nat := 0x07FF

end Config

/-- `SID_W`, the width of the short-id field of a standard id (R7, OPEN, default 5). The spec lays out
two values only: 5 (30_encoding.md R46) and 6 (R58). -/
inductive SidW where
  | five
  | six
deriving DecidableEq, Repr

/-- `SID_W` as a number of bits. -/
def SidW.bits : SidW → Nat
  | .five => 5
  | .six => 6

/-- The three OPEN parameters of R7: `MIN_BLOCK` (D2), `SID_W` (D12), `CNT_W` (D6). -/
structure Params where
  /-- `MIN_BLOCK`, the smallest unstuffed block (checksum byte counted) the decoder delivers. -/
  minBlock : Nat
  /-- `SID_W`, the width of the short-id field of a standard id. -/
  sidW : SidW
  /-- `CNT_W`, the width of each event counter. -/
  cntW : Nat
deriving DecidableEq, Repr

/-- The defaults of R7, used in every example of the spec: `MIN_BLOCK` 4, `SID_W` 5, `CNT_W` 32. -/
def Params.standard : Params := { minBlock := 4, sidW := .five, cntW := 32 }

end Sys2Proof
end

