-- ==== Sys2Proof/Syntax.lean ====
section
/-! DEFINITION. The formats of 30_encoding.md (the CAN message record, the fields of an id, the parts of
a serial payload), the instruction type with one constructor for each row of spec/opcode_table.json, and
the transactions in which the environment presents them on the ports (10_state.md R18 to R21).

The table has two kinds of row (00_scope.md R2). A row of format `OPSEL` is an operation the environment
presents; its constructor carries the operation's operands. A row of a wire format is a code point the
block recognises on a port; its constructor is the arrival of that code point, with the bytes that come
with it (log entry 4). -/

namespace Sys2Proof

/-! ### Formats -/

/-- The identifier of a CAN message: a standard one of 11 bits (`STD11`, R46) or an extended one of 29
bits (`EXT29`, R47). The constructor is the flag `ext` of 10_state.md R20. -/
inductive CanId where
  | std (id : BitVec Config.stdW)
  | ext (id : BitVec Config.extW)
deriving DecidableEq, Repr

/-- `CANMSG`, the record `ext, id, data` of R20 and R48; `data` is 0 to 8 bytes (checked in WellFormed). -/
structure CanMsg where
  id : CanId
  data : Bytes
deriving DecidableEq, Repr

/-- The flag `ext` of a CAN message (R20). -/
def CanMsg.ext (m : CanMsg) : Bool :=
  match m.id with
  | .std _ => false
  | .ext _ => true

/-- The class `STD.UNPACK` gives a standard id (42_can_id_translator.md R92). -/
inductive StdClass where
  | runtime
  | unknown
deriving DecidableEq, Repr

/-- The result of `STD.UNPACK` (R92). `sid` has 5 or 6 significant bits and `rsv` has 2 or 1, as `SID_W`
is 5 or 6 (R46, R58); both are widened by zeros (R49; log entry 14). -/
structure StdFields where
  cls : StdClass
  opc : BitVec Config.opcW
  sid : BitVec 6
  rsv : BitVec 2
deriving DecidableEq, Repr

/-- The message kind `EXT.UNPACK` gives an extended id (R95): the seven tags of R51, or unknown. -/
inductive ExtKind where
  | detect1
  | detect2
  | detect3
  | detect4
  | ackId
  | broadcast
  | firmware
  | unknown
deriving DecidableEq, Repr

/-- The result of `EXT.UNPACK` (R95). -/
structure ExtFields where
  kind : ExtKind
  tag : BitVec Config.tagW
  arg : BitVec Config.argW
deriving DecidableEq, Repr

/-- Why `SER.SPLIT` cannot translate a payload (R98). -/
inductive UnknownWhy where
  | noId
  | idReserved
  | dataTooLong
deriving DecidableEq, Repr

/-- The result of `SER.SPLIT` (R98). A CAN result is always a standard message (R108), so it carries the
11-bit id and the data. -/
inductive SerSplit where
  | can (id : BitVec Config.stdW) (data : Bytes)
  | host (sub : Byte) (args : Bytes)
  | unknown (why : UnknownWhy)
deriving DecidableEq, Repr

/-- The result of `HOST.CLASSIFY` (R101): the three sub-commands of R52, or unknown. -/
inductive HostCmd where
  | numPnls
  | pnlInfo
  | reset
  | hostUnknown
deriving DecidableEq, Repr

/-- The result of `RT.ROUTE` (R104). -/
inductive RouteRes where
  | noop
  | event (sid : BitVec 6) (opc : BitVec Config.opcW) (data : Bytes)
deriving DecidableEq, Repr

/-- The causes of a refusal, codes 6 to 12 of 60_exceptions.md R150. -/
inductive RefuseCause where
  | tooLong
  | opcReserved
  | sidRange
  | tagReserved
  | extOnSerial
  | subReserved
  | opReserved
deriving DecidableEq, Repr

/-! ### Instructions -/

/-- One constructor for each row of spec/opcode_table.json, in the table's order. -/
inductive Instr where
  /-- `RST` (R170). -/
  | rst
  /-- `ENC.FRAME p` (R62). -/
  | encFrame (p : Bytes)
  /-- `DEC.PUSH b` (R72 to R75). -/
  | decPush (b : Byte)
  /-- `CNT.READ sel` (R81). -/
  | cntRead (sel : BitVec 2)
  /-- `STD.PACK opc sid` (R91); `sid` is any unsigned integer. -/
  | stdPack (opc : BitVec Config.opcW) (sid : Nat)
  /-- `STD.UNPACK id11` (R92). -/
  | stdUnpack (id : BitVec Config.stdW)
  /-- `EXT.PACK tag arg` (R94). -/
  | extPack (tag : BitVec Config.tagW) (arg : BitVec Config.argW)
  /-- `EXT.UNPACK id29` (R95). -/
  | extUnpack (id : BitVec Config.extW)
  /-- `SER.JOIN msg` (R97). -/
  | serJoin (msg : CanMsg)
  /-- `SER.SPLIT p` (R98). -/
  | serSplit (p : Bytes)
  /-- `HOST.BUILD sub args` (R100). -/
  | hostBuild (sub : Byte) (args : Bytes)
  /-- `HOST.CLASSIFY sub` (R101). -/
  | hostClassify (sub : Byte)
  /-- `RT.ROUTE u data` (R104). -/
  | rtRoute (u : StdFields) (data : Bytes)
  /-- `DELIM`: the byte 0x00 arrives on `ser_rx` (R53, R74). -/
  | delim
  /-- `LED`: a standard message with opcode 1 arrives on `can_rx` (R50, R107). -/
  | led (sid : BitVec 6) (data : Bytes)
  /-- `ADC`: a standard message with opcode 2 arrives on `can_rx` (R50, R107). -/
  | adc (sid : BitVec 6) (data : Bytes)
  /-- `SWITCH`: a standard message with opcode 3 arrives on `can_rx` (R50, R107). -/
  | switch (sid : BitVec 6) (data : Bytes)
  /-- `QUADENC`: a standard message with opcode 4 arrives on `can_rx` (R50, R107). -/
  | quadenc (sid : BitVec 6) (data : Bytes)
  /-- `DETECT_1`: an extended message with tag 0x1F arrives on `can_rx` (R51, R107). -/
  | detect1 (arg : BitVec Config.argW) (data : Bytes)
  /-- `DETECT_2`: an extended message with tag 0x1E arrives on `can_rx` (R51, R107). -/
  | detect2 (arg : BitVec Config.argW) (data : Bytes)
  /-- `DETECT_3`: an extended message with tag 0x1D arrives on `can_rx` (R51, R107). -/
  | detect3 (arg : BitVec Config.argW) (data : Bytes)
  /-- `DETECT_4`: an extended message with tag 0x1C arrives on `can_rx` (R51, R107). -/
  | detect4 (arg : BitVec Config.argW) (data : Bytes)
  /-- `ACK_ID`: an extended message with tag 0x1B arrives on `can_rx` (R51, R107). -/
  | ackId (arg : BitVec Config.argW) (data : Bytes)
  /-- `BROADCAST`: an extended message with tag 0x00 arrives on `can_rx` (R51, R107). -/
  | broadcast (arg : BitVec Config.argW) (data : Bytes)
  /-- `FIRMWARE`: an extended message with tag 0x01 arrives on `can_rx` (R51, R107). -/
  | firmware (arg : BitVec Config.argW) (data : Bytes)
  /-- `SERCAN`: a delivered payload that carries a standard CAN message (R44, R106). -/
  | sercan (id : BitVec Config.stdW) (data : Bytes)
  /-- `SERHOST`: a delivered host-command payload whose sub-command is none of the three named ones
  (R45, R106); those have rows of their own. -/
  | serhost (sub : Byte) (args : Bytes)
  /-- `NUM_PNLS`: a delivered host-command payload with sub-command 0x01 (R52, R106). -/
  | numPnls (args : Bytes)
  /-- `PNL_INFO`: a delivered host-command payload with sub-command 0x02 (R52, R106). -/
  | pnlInfo (args : Bytes)
  /-- `RESET`: a delivered host-command payload with sub-command 0xFF (R52, R106, R173). -/
  | reset (args : Bytes)
deriving DecidableEq, Repr

/-! ### Transactions -/

/-- The operand ports of the operations. `enc_in`, `ser_rx` and `cnt_sel` are named by 10_state.md R18,
R19, R21; the others are the operands of the rules R91 to R104. An operation reads its own operands
only; a port that is not driven is 0 or empty. -/
structure Operands where
  encIn : Bytes := []
  serRx : Byte := 0
  cntSel : BitVec 2 := 0
  opc : BitVec Config.opcW := 0
  sid : Nat := 0
  id11 : BitVec Config.stdW := 0
  tag : BitVec Config.tagW := 0
  arg : BitVec Config.argW := 0
  id29 : BitVec Config.extW := 0
  msg : CanMsg := ⟨.std 0, []⟩
  payload : Bytes := []
  sub : Byte := 0
  args : Bytes := []
  fields : StdFields := ⟨.unknown, 0, 0, 0⟩
  data : Bytes := []
deriving DecidableEq, Repr

/-- One transaction of the environment with the block (log entries 4 and 5). -/
inductive Transaction where
  /-- The operation that the 4-bit selector `op_sel` names (R56), with the operand ports. -/
  | op (sel : BitVec 4) (a : Operands)
  /-- One byte of the stream `ser_rx` (R18, R25). -/
  | serRx (b : Byte)
  /-- One message from `can_rx` (R20), which the Brain bridges to the serial link (R107). -/
  | canRx (m : CanMsg)
  /-- One delivered payload, which the Brain bridges to the CAN bus (R106). -/
  | payload (p : Bytes)
deriving DecidableEq, Repr

end Sys2Proof
end

