-- ==== Sys2Proof/Machine/Operands.lean ====
section
/-! DEFINITION. Operand assembly (30_encoding.md R49), the recognition of every code point (R50 to R54)
and the pure translator functions of 42_can_id_translator.md. The decoder, the encoder and the meanings
all use these and nothing else to read or build an id or a payload. -/

namespace Sys2Proof.Machine

/-! ### Bit fields -/

/-- `v[hi:lo]`, the bit slice of 00_scope.md R8. -/
def slice (v hi lo : Nat) : Nat := (v >>> lo) % 2 ^ (hi + 1 - lo)

/-! ### Standard identifiers -/

/-- The four runtime opcodes of R50. -/
def isRuntimeOpc (opc : BitVec Config.opcW) : Bool := opc == 1 || opc == 2 || opc == 3 || opc == 4

/-- The class of a standard id by its fields (R92): unknown when a reserved bit is set (D13) or the opcode
is none of the four (D14). -/
def stdClassOf (opc : BitVec Config.opcW) (rsv : BitVec 2) : StdClass :=
  if rsv != 0 || !isRuntimeOpc opc then .unknown else .runtime

/-- `id11 = (opc << SID_W) | sid`, with the reserved bits 0 (R49). -/
def stdIdOf (w : SidW) (opc : BitVec Config.opcW) (sid : Nat) : BitVec Config.stdW :=
  BitVec.ofNat Config.stdW ((opc.toNat <<< w.bits) ||| sid)

/-- `STD.PACK` (R91): the opcode is tested before the short id (60_exceptions.md R159). -/
def stdPack (w : SidW) (opc : BitVec Config.opcW) (sid : Nat) : Except RefuseCause (BitVec Config.stdW) :=
  if !isRuntimeOpc opc then .error .opcReserved
  else if sid = 0 ∨ sid > 2 ^ w.bits - 1 then .error .sidRange
  else .ok (stdIdOf w opc sid)

/-- `STD.UNPACK` (R92), total over all 2048 ids. -/
def stdUnpack (w : SidW) (id : BitVec Config.stdW) : StdFields :=
  let sid : BitVec 6 := BitVec.ofNat 6 (slice id.toNat (w.bits - 1) 0)
  let opc : BitVec Config.opcW := BitVec.ofNat Config.opcW (slice id.toNat (w.bits + Config.opcW - 1) w.bits)
  let rsv : BitVec 2 := BitVec.ofNat 2 (slice id.toNat (Config.stdW - 1) (w.bits + Config.opcW))
  { cls := stdClassOf opc rsv, opc := opc, sid := sid, rsv := rsv }

/-! ### Extended identifiers -/

/-- The kind a tag names (R51, R95); every other tag is reserved (R54, D16). -/
def tagKind (tag : BitVec Config.tagW) : ExtKind :=
  if tag = 0x1F then .detect1
  else if tag = 0x1E then .detect2
  else if tag = 0x1D then .detect3
  else if tag = 0x1C then .detect4
  else if tag = 0x1B then .ackId
  else if tag = 0x00 then .broadcast
  else if tag = 0x01 then .firmware
  else .unknown

/-- `id29 = (tag << 24) | arg` (R49). -/
def extIdOf (tag : BitVec Config.tagW) (arg : BitVec Config.argW) : BitVec Config.extW :=
  BitVec.ofNat Config.extW ((tag.toNat <<< Config.argW) ||| arg.toNat)

/-- `EXT.PACK` (R94). -/
def extPack (tag : BitVec Config.tagW) (arg : BitVec Config.argW) : Except RefuseCause (BitVec Config.extW) :=
  if tagKind tag = .unknown then .error .tagReserved else .ok (extIdOf tag arg)

/-- `EXT.UNPACK` (R95), total over all 2^29 ids; `arg` is passed through (R47). -/
def extUnpack (id : BitVec Config.extW) : ExtFields :=
  let tag : BitVec Config.tagW := BitVec.ofNat Config.tagW (slice id.toNat (Config.extW - 1) Config.argW)
  let arg : BitVec Config.argW := BitVec.ofNat Config.argW (slice id.toNat (Config.argW - 1) 0)
  { kind := tagKind tag, tag := tag, arg := arg }

/-! ### The serial payload -/

/-- `id16 = (p[0] << 8) | p[1]`, the big-endian serial id (R27, R49). -/
def id16 (hi lo : Byte) : Nat := (hi.toNat <<< 8) ||| lo.toNat

/-- The two id bytes of a standard id, high byte first (R44, R97). -/
def idBytes (id : BitVec Config.stdW) : Bytes :=
  [BitVec.ofNat 8 (slice id.toNat (Config.stdW - 1) 8), BitVec.ofNat 8 (slice id.toNat 7 0)]

/-- The `SERCAN` payload of a standard message (R44). -/
def serCanPayload (id : BitVec Config.stdW) (data : Bytes) : Bytes := idBytes id ++ data

/-- `SER.JOIN` (R97): an extended message does not fit the two id bytes and is refused (R108). -/
def serJoin (m : CanMsg) : Except RefuseCause Bytes :=
  match m.id with
  | .ext _ => .error .extOnSerial
  | .std id => .ok (serCanPayload id m.data)

/-- `SER.SPLIT` (R98), total; the tests stand in the rule's order (R159). -/
def serSplit (p : Bytes) : SerSplit :=
  match p with
  | [] => .unknown .noId
  | [_] => .unknown .noId
  | b0 :: b1 :: rest =>
    if b0 = Config.hostSentinel then .host b1 rest
    else if id16 b0 b1 > Config.serCanMax then .unknown .idReserved
    else if rest.length > Config.canDataMax then .unknown .dataTooLong
    else .can (BitVec.ofNat Config.stdW (slice (id16 b0 b1) (Config.stdW - 1) 0)) rest

/-! ### Host commands -/

/-- `HOST.CLASSIFY` (R101). -/
def hostClassify (sub : Byte) : HostCmd :=
  if sub = 0x01 then .numPnls
  else if sub = 0x02 then .pnlInfo
  else if sub = 0xFF then .reset
  else .hostUnknown

/-- The `SERHOST` payload of a sub-command and its argument bytes (R45). -/
def serHostPayload (sub : Byte) (args : Bytes) : Bytes := Config.hostSentinel :: sub :: args

/-- `HOST.BUILD` (R100): the sub-command is tested before the length (R159). -/
def hostBuild (sub : Byte) (args : Bytes) : Except RefuseCause Bytes :=
  if hostClassify sub = .hostUnknown then .error .subReserved
  else if args.length > Config.maxPayload - Config.idBytes then .error .tooLong
  else .ok (serHostPayload sub args)

/-! ### Routing -/

/-- `RT.ROUTE` (R104) with the lookup input `pt_present`. -/
def rtRoute (ptPresent : BitVec 6 → Bool) (u : StdFields) (data : Bytes) : RouteRes :=
  if u.cls ≠ .runtime then .noop
  else if ptPresent u.sid then .event u.sid u.opc data
  else .noop

end Sys2Proof.Machine
end

