-- ==== Sys2Proof/WellFormed.lean ====
section
/-! DEFINITION. Which instruction terms are values of the ports: the bounds that the types of Syntax.lean
do not already carry. Each check cites the rule that sets its bound (log entry 9). -/

namespace Sys2Proof

/-- CAN data is 0 to `CAN_DATA_MAX` bytes (10_state.md R20, 30_encoding.md R48). -/
def canDataOk (data : Bytes) : Bool := data.length ≤ Config.canDataMax

/-- A short id fits the `SID_W`-bit field (30_encoding.md R46, R58). -/
def sidFits (w : SidW) (sid : BitVec 6) : Bool := sid.toNat < 2 ^ w.bits

/-- The operand `u` of `RT.ROUTE` is a result of `STD.UNPACK` (R104): the fields fit their widths and the
class is the one the fields give (R92). -/
def stdFieldsOk (w : SidW) (u : StdFields) : Bool :=
  sidFits w u.sid && u.rsv.toNat < 2 ^ (Config.stdW - Config.opcW - w.bits) &&
    u.cls == Machine.stdClassOf u.opc u.rsv

/-- The check on an instruction: what the environment can present on the ports. -/
def Instr.wellFormed (pr : Params) : Instr → Bool
  | .rst => true
  | .encFrame p => p.length ≤ Config.encInMax
  | .decPush _ => true
  | .cntRead _ => true
  | .stdPack _ _ => true
  | .stdUnpack _ => true
  | .extPack _ _ => true
  | .extUnpack _ => true
  | .serJoin m => canDataOk m.data
  | .serSplit _ => true
  | .hostBuild _ _ => true
  | .hostClassify _ => true
  | .rtRoute u data => stdFieldsOk pr.sidW u && canDataOk data
  | .delim => true
  | .led sid data => sidFits pr.sidW sid && canDataOk data
  | .adc sid data => sidFits pr.sidW sid && canDataOk data
  | .switch sid data => sidFits pr.sidW sid && canDataOk data
  | .quadenc sid data => sidFits pr.sidW sid && canDataOk data
  | .detect1 _ data => canDataOk data
  | .detect2 _ data => canDataOk data
  | .detect3 _ data => canDataOk data
  | .detect4 _ data => canDataOk data
  | .ackId _ data => canDataOk data
  | .broadcast _ data => canDataOk data
  | .firmware _ data => canDataOk data
  | .sercan _ data => canDataOk data
  | .serhost sub _ => Machine.hostClassify sub == .hostUnknown
  | .numPnls _ => true
  | .pnlInfo _ => true
  | .reset _ => true

end Sys2Proof
end

