-- ==== Sys2Proof/Decode.lean ====
section
/-! DEFINITION. The decoder: from a transaction on the ports to the instruction of the opcode table, total,
rejecting by name. After it the encoder, written from the same tables (30_encoding.md R46, R47, R50 to R53,
R56), and the opcode table's own numbering of words. -/

namespace Sys2Proof

/-- Why a transaction is no row of the opcode table. All but the last have an effect that the spec gives,
which `Machine.takeRejected` carries out; the last is no value of the ports. -/
inductive Reject where
  /-- `op_sel` 0xD to 0xF (R54, R56). -/
  | opReserved (sel : BitVec 4)
  /-- A standard id of class unknown (R92). -/
  | stdUnknown (u : StdFields)
  /-- An extended id of kind unknown (R95). -/
  | extUnknown (k : ExtFields)
  /-- A payload that `SER.SPLIT` cannot translate (R98). -/
  | payloadUnknown (why : UnknownWhy)
  /-- A value the environment cannot present on the port: see WellFormed. -/
  | illFormed
deriving DecidableEq, Repr

/-- The operation that `op_sel` names, with its operands (R56). -/
def decodeOp (sel : BitVec 4) (a : Operands) : Except Reject Instr :=
  match sel.toNat with
  | 0x0 => .ok .rst
  | 0x1 => .ok (.encFrame a.encIn)
  | 0x2 => .ok (.decPush a.serRx)
  | 0x3 => .ok (.cntRead a.cntSel)
  | 0x4 => .ok (.stdPack a.opc a.sid)
  | 0x5 => .ok (.stdUnpack a.id11)
  | 0x6 => .ok (.extPack a.tag a.arg)
  | 0x7 => .ok (.extUnpack a.id29)
  | 0x8 => .ok (.serJoin a.msg)
  | 0x9 => .ok (.serSplit a.payload)
  | 0xA => .ok (.hostBuild a.sub a.args)
  | 0xB => .ok (.hostClassify a.sub)
  | 0xC => .ok (.rtRoute a.fields a.data)
  | _ => .error (.opReserved sel)

/-- A byte of the stream: 0x00 is the delimiter, every other byte is data (R53, R54). -/
def decodeByte (b : Byte) : Instr := if b = 0 then .delim else .decPush b

/-- A standard message: the opcode field names the row (R46, R50). -/
def decodeStd (w : SidW) (id : BitVec Config.stdW) (data : Bytes) : Except Reject Instr :=
  let u := Machine.stdUnpack w id
  match u.cls with
  | .unknown => .error (.stdUnknown u)
  | .runtime =>
    if u.opc = 1 then .ok (.led u.sid data)
    else if u.opc = 2 then .ok (.adc u.sid data)
    else if u.opc = 3 then .ok (.switch u.sid data)
    else .ok (.quadenc u.sid data)

/-- An extended message: the tag field names the row (R47, R51). -/
def decodeExt (id : BitVec Config.extW) (data : Bytes) : Except Reject Instr :=
  let k := Machine.extUnpack id
  match k.kind with
  | .detect1 => .ok (.detect1 k.arg data)
  | .detect2 => .ok (.detect2 k.arg data)
  | .detect3 => .ok (.detect3 k.arg data)
  | .detect4 => .ok (.detect4 k.arg data)
  | .ackId => .ok (.ackId k.arg data)
  | .broadcast => .ok (.broadcast k.arg data)
  | .firmware => .ok (.firmware k.arg data)
  | .unknown => .error (.extUnknown k)

/-- A message from `can_rx`; more than 8 data bytes is no CAN message (R20). -/
def decodeCan (w : SidW) (m : CanMsg) : Except Reject Instr :=
  if !canDataOk m.data then .error .illFormed
  else
    match m.id with
    | .std id => decodeStd w id m.data
    | .ext id => decodeExt id m.data

/-- A delivered payload: the opcode map of R53. -/
def decodePayload (p : Bytes) : Except Reject Instr :=
  match Machine.serSplit p with
  | .can id data => .ok (.sercan id data)
  | .host sub args =>
    match Machine.hostClassify sub with
    | .numPnls => .ok (.numPnls args)
    | .pnlInfo => .ok (.pnlInfo args)
    | .reset => .ok (.reset args)
    | .hostUnknown => .ok (.serhost sub args)
  | .unknown why => .error (.payloadUnknown why)

/-- The instruction a transaction presents, before the check. -/
def decodeRaw (pr : Params) : Transaction → Except Reject Instr
  | .op sel a => decodeOp sel a
  | .serRx b => .ok (decodeByte b)
  | .canRx m => decodeCan pr.sidW m
  | .payload p => decodePayload p

/-- The decoder: total, and what it answers is well formed. -/
def decode (pr : Params) (t : Transaction) : Except Reject Instr :=
  match decodeRaw pr t with
  | .error e => .error e
  | .ok i => if i.wellFormed pr then .ok i else .error .illFormed

/-! ### The encoder -/

/-- The transaction that presents an instruction. -/
def encode (pr : Params) : Instr → Transaction
  | .rst => .op 0x0 {}
  | .encFrame p => .op 0x1 { encIn := p }
  | .decPush b => .op 0x2 { serRx := b }
  | .cntRead sel => .op 0x3 { cntSel := sel }
  | .stdPack opc sid => .op 0x4 { opc := opc, sid := sid }
  | .stdUnpack id => .op 0x5 { id11 := id }
  | .extPack tag arg => .op 0x6 { tag := tag, arg := arg }
  | .extUnpack id => .op 0x7 { id29 := id }
  | .serJoin m => .op 0x8 { msg := m }
  | .serSplit p => .op 0x9 { payload := p }
  | .hostBuild sub args => .op 0xA { sub := sub, args := args }
  | .hostClassify sub => .op 0xB { sub := sub }
  | .rtRoute u data => .op 0xC { fields := u, data := data }
  | .delim => .serRx 0x00
  | .led sid data => .canRx ⟨.std (Machine.stdIdOf pr.sidW 1 sid.toNat), data⟩
  | .adc sid data => .canRx ⟨.std (Machine.stdIdOf pr.sidW 2 sid.toNat), data⟩
  | .switch sid data => .canRx ⟨.std (Machine.stdIdOf pr.sidW 3 sid.toNat), data⟩
  | .quadenc sid data => .canRx ⟨.std (Machine.stdIdOf pr.sidW 4 sid.toNat), data⟩
  | .detect1 arg data => .canRx ⟨.ext (Machine.extIdOf 0x1F arg), data⟩
  | .detect2 arg data => .canRx ⟨.ext (Machine.extIdOf 0x1E arg), data⟩
  | .detect3 arg data => .canRx ⟨.ext (Machine.extIdOf 0x1D arg), data⟩
  | .detect4 arg data => .canRx ⟨.ext (Machine.extIdOf 0x1C arg), data⟩
  | .ackId arg data => .canRx ⟨.ext (Machine.extIdOf 0x1B arg), data⟩
  | .broadcast arg data => .canRx ⟨.ext (Machine.extIdOf 0x00 arg), data⟩
  | .firmware arg data => .canRx ⟨.ext (Machine.extIdOf 0x01 arg), data⟩
  | .sercan id data => .payload (Machine.serCanPayload id data)
  | .serhost sub args => .payload (Machine.serHostPayload sub args)
  | .numPnls args => .payload (Machine.serHostPayload 0x01 args)
  | .pnlInfo args => .payload (Machine.serHostPayload 0x02 args)
  | .reset args => .payload (Machine.serHostPayload 0xFF args)

/-! ### The opcode table's words -/

/-- The transaction that a word of spec/opcode_table.json stands for, with operands of zeros. The table
gives patterns on several ports, so a word is read by its width: up to 8 bits `op_sel` (4 bits, R56); up
to 16 bits a standard id where its opcode field is one of R50, else the serial id `id16` (R53), high byte
first (R27); up to 32 bits an extended id (R47). The byte 0x00 is both `op_sel` 0 (`RST`) and the stream
byte `DELIM`: the table's numbers do not tell the two apart, and this reading gives `RST` (log entry 7). -/
def tableTransaction (nbits w : Nat) : Option Transaction :=
  if nbits = 0 then none
  else if nbits ≤ 8 then some (.op (BitVec.ofNat 4 w) {})
  else if nbits ≤ 16 then
    if w < 2 ^ Config.stdW ∧ (Machine.stdUnpack .five (BitVec.ofNat Config.stdW w)).cls = .runtime then
      some (.canRx ⟨.std (BitVec.ofNat Config.stdW w), []⟩)
    else if w < 2 ^ 16 then
      some (.payload [BitVec.ofNat 8 (Machine.slice w 15 8), BitVec.ofNat 8 (Machine.slice w 7 0)])
    else none
  else if nbits ≤ 32 ∧ w < 2 ^ Config.extW then some (.canRx ⟨.ext (BitVec.ofNat Config.extW w), []⟩)
  else none

/-- The instruction the decoder reads from a word of the opcode table (which is written for the default
parameters). -/
def decodeTableWord (nbits w : Nat) : Option Instr :=
  match tableTransaction nbits w with
  | none => none
  | some t =>
    match decode Params.standard t with
    | .ok i => some i
    | .error _ => none

end Sys2Proof
end

