-- ==== Sys2Proof/Machine/State.lean ====
section
/-! DEFINITION. The state of one block instance: the tuple of 10_state.md R10, the parameters, the ports
with the values the last step drove on them, and the environment's operations still to be presented. Plain
data throughout. `State.reset` is the state after reset (R23). -/

namespace Sys2Proof.Machine

/-! ### What a step can answer -/

/-- The four drops of the decoder (60_exceptions.md R151 to R154). -/
inductive DropCause where
  | overflow
  | checksumChain
  | checksumSum
  | short
deriving DecidableEq, Repr

/-- The event of one `DEC.PUSH`, port `dec_evt` (10_state.md R19). -/
inductive DecEvt where
  /-- `NONE`: a data byte was stored. -/
  | none
  /-- `IDLE`: a delimiter with nothing accumulated (R75). -/
  | idle
  /-- `DELIVER(p)`. -/
  | deliver (p : Bytes)
  /-- `DROP(cause)`. -/
  | drop (c : DropCause)
deriving DecidableEq, Repr

/-- The verdict of the frame check (41_framer_decode.md R71). -/
inductive Verdict where
  | bad (c : DropCause)
  | good (p : Bytes)
deriving DecidableEq, Repr

/-- The result of `BRIDGE.S2C` (42_can_id_translator.md R106). -/
inductive S2CRes where
  | sent (ok : Bool)
  | hostCmd (c : HostCmd) (args : Bytes)
  | dropped
deriving DecidableEq, Repr

/-- The result of `BRIDGE.C2S` (R107). -/
inductive C2SRes where
  | noop
  /-- `LOCAL(k, data)`: handed to the arbitration software, not sent to the Host. -/
  | handLocal (k : ExtFields) (data : Bytes)
  | forwarded (r : RouteRes)
  | dropped
deriving DecidableEq, Repr

/-- The value an operation returns to the environment in its own step (R17). `RST` returns none. -/
inductive Result where
  /-- `enc_res` = `OK` (R19). -/
  | encOk
  /-- A refusal of a stateless operation (R155). -/
  | refuse (c : RefuseCause)
  /-- `dec_evt` (R19). -/
  | dec (e : DecEvt)
  /-- `cnt_val` (R81). -/
  | count (v : Nat)
  | stdId (id : BitVec Config.stdW)
  | stdFields (u : StdFields)
  | extId (id : BitVec Config.extW)
  | extFields (k : ExtFields)
  /-- The payload that `SER.JOIN` or `HOST.BUILD` builds. -/
  | payload (p : Bytes)
  | split (r : SerSplit)
  | hostCmd (c : HostCmd)
  | route (r : RouteRes)
  | s2c (r : S2CRes)
  | c2s (r : C2SRes)
deriving DecidableEq, Repr

/-- Why a step stops. -/
inductive Fault where
  /-- Raised by `takeRejected`, for a request that is no value of the ports (WellFormed): a CAN record
  with more than 8 data bytes (R20), an `RT.ROUTE` operand that `STD.UNPACK` cannot return (R104), an
  `enc_in` sequence over 255 bytes (R19). The spec says that the environment presents none. Safe: the
  model stops where the hardware has no such request. -/
  | notATransaction
deriving DecidableEq, Repr

/-- Why an instruction has no meaning. -/
inductive Refusal where
  /-- Raised by an arm of `exec` whose instruction has no meaning yet: no arm does. Safe. -/
  | notModelled (mnemonic : String)
deriving DecidableEq, Repr

/-! ### Memory -/

/-- `rx_buf[0 .. rx_len-1]`, the block's only storage (20_memory.md R25): the accumulated bytes in arrival
order. 10_state.md R11: "a model should represent `rx_buf` as a sequence of length `rx_len` and nothing
more". A cell at index `rx_len` or above holds no value; equal memories are equal lists (log entry 3). -/
abbrev Memory := List Byte

/-! ### The environment -/

/-- One request of the environment: a transaction and the levels of the two side inputs it samples (R21,
R31): bit `i` of `ptPresent` is `pt_present(i)`, and `txOk` is the controller's `tx_ok` (DESIGN CHOICE, log
entry 5). -/
structure Request where
  txn : Transaction
  ptPresent : BitVec (Config.slotMax + 1)
  txOk : Bool
deriving DecidableEq, Repr

/-! ### State -/

/-- The state of one block instance, and the model's own fields: the parameters (log entry 2), the ports (log
entry 6) and the requests (log entry 5). -/
structure State where
  /-- The parameters of R7; no step writes them. -/
  params : Params
  /-- `rx_buf[0 .. rx_len-1]` (R11); its length is `rx_len` (R12). -/
  rxBuf : Memory
  /-- `cnt_overflow` (R13). -/
  cntOverflow : Nat
  /-- `cnt_checksum` (R13). -/
  cntChecksum : Nat
  /-- `cnt_short` (R13). -/
  cntShort : Nat
  /-- `cnt_unknown` (R13). -/
  cntUnknown : Nat
  /-- Input port `pt_present`, bit `i` for short id `i` (R21). -/
  ptPresent : BitVec (Config.slotMax + 1)
  /-- Input port `tx_ok` (R20). -/
  txOk : Bool
  /-- Output stream `ser_tx`: every byte emitted so far, oldest first (R18). -/
  serTx : Bytes
  /-- Output port `can_tx`: every message handed to the CAN controller so far, oldest first (R20). -/
  canTx : List CanMsg
  /-- What the last step returned (R17); no rule reads it. -/
  result : Option Result
  /-- The requests the environment has still to present, next first (R187). -/
  pending : List Request
deriving DecidableEq, Repr

/-- The state after reset for given parameters: R23 for the block, an empty PanelTable (R172), and for the
other ports the values of log entry 6 (DESIGN CHOICE). -/
def State.resetWith (pr : Params) : State where
  params := pr
  rxBuf := []
  cntOverflow := 0
  cntChecksum := 0
  cntShort := 0
  cntUnknown := 0
  ptPresent := 0
  txOk := false
  serTx := []
  canTx := []
  result := none
  pending := []

/-- The state after reset (R23) with the default parameters of R7. -/
def State.reset : State := State.resetWith Params.standard

end Sys2Proof.Machine
end

