-- ==== Sys2Proof/Machine/Flags.lean ====
section
/-! DEFINITION. The block has no flags (10_state.md R17); what stands in their place are the four event
counters (R13, R14) and the outcome codes of 60_exceptions.md R150. Here: which counter an event counts
in, the saturating increment, and the code of every outcome. -/

namespace Sys2Proof.Machine

/-- The four counters, in the order of the `CNT.READ` selector (41_framer_decode.md R81). -/
inductive Counter where
  | overflow
  | checksum
  | short
  | unknown
deriving DecidableEq, Repr

/-- `sat_inc` (R14): one more, or the same at 2^`CNT_W` - 1 (and above, where no counter is: log entry 10). -/
def satInc (cntW v : Nat) : Nat := if v < 2 ^ cntW - 1 then v + 1 else v

/-- The counter a drop counts in (R150). -/
def DropCause.counter : DropCause → Counter
  | .overflow => .overflow
  | .checksumChain => .checksum
  | .checksumSum => .checksum
  | .short => .short

/-- The counter that `cnt_sel` selects (R81); every value of the 2-bit selector is defined. -/
def counterOfSel (sel : BitVec 2) : Counter :=
  if sel = 0 then .overflow else if sel = 1 then .checksum else if sel = 2 then .short else .unknown

/-- The value of a counter. -/
def State.count (s : State) : Counter → Nat
  | .overflow => s.cntOverflow
  | .checksum => s.cntChecksum
  | .short => s.cntShort
  | .unknown => s.cntUnknown

/-- A counter incremented with saturation (R14). -/
def State.bump (s : State) : Counter → State
  | .overflow => { s with cntOverflow := satInc s.params.cntW s.cntOverflow }
  | .checksum => { s with cntChecksum := satInc s.params.cntW s.cntChecksum }
  | .short => { s with cntShort := satInc s.params.cntW s.cntShort }
  | .unknown => { s with cntUnknown := satInc s.params.cntW s.cntUnknown }

/-! ### Outcome codes -/

/-- The code of a drop (R150). -/
def DropCause.code : DropCause → Nat
  | .overflow => 1
  | .checksumChain => 2
  | .checksumSum => 3
  | .short => 4

/-- The code of a refusal (R150). -/
def refuseCode : RefuseCause → Nat
  | .tooLong => 6
  | .opcReserved => 7
  | .sidRange => 8
  | .tagReserved => 9
  | .extOnSerial => 10
  | .subReserved => 11
  | .opReserved => 12

/-- The code of an untranslatable payload (R150). -/
def unknownCode : UnknownWhy → Nat
  | .noId => 13
  | .idReserved => 14
  | .dataTooLong => 15

/-- The code R150 gives to an outcome; an outcome that is not in that table has none. No rule depends on
the numbers. -/
def Result.code : Result → Option Nat
  | .dec .none => some 0
  | .dec (.drop c) => some c.code
  | .dec .idle => some 5
  | .refuse c => some (refuseCode c)
  | .split (.unknown why) => some (unknownCode why)
  | .stdFields u => if u.cls = .unknown then some 16 else none
  | .extFields k => if k.kind = .unknown then some 17 else none
  | .hostCmd .hostUnknown => some 18
  | .route .noop => some 19
  | .c2s .noop => some 19
  | .s2c (.sent false) => some 20
  | _ => none

end Sys2Proof.Machine
end

