-- ==== Sys2Proof/Machine/Ops.lean ====
section
/-! DEFINITION. The shared operations: the checksum and the byte stuffing (40_framer_encode.md R60, R61),
the unstuffing and the frame check (41_framer_decode.md R70, R71), reads and writes of `rx_buf`, the ports,
the cases of `DEC.PUSH` (R72 to R75), taking a drop (60_exceptions.md R160), the two bridging compositions
(42_can_id_translator.md R106, R107), and what a request that is no row of the opcode table does. -/

namespace Sys2Proof.Machine

/-! ### Arithmetic over byte sequences -/

/-- `sum(s)` as a natural number (00_scope.md R8). -/
def sumBytes (s : Bytes) : Nat := (s.map BitVec.toNat).sum

/-- `cks(p)` (R60): `(256 - (sum(p) mod 256)) mod 256`. -/
def cks (p : Bytes) : Byte := BitVec.ofNat 8 ((256 - sumBytes p % 256) % 256)

/-! ### Stuffing -/

/-- The loop of `stuff` (R61) with `k` positions still to visit; the next one is `j = m + 1 - k`. `last` is
the position of the most recent code byte, `S` the `m + 1` positions being written. -/
def stuffLoop (m : Nat) : Nat → Nat → Bytes → Bytes
  | 0, last, S => S.set last (BitVec.ofNat 8 ((m + 1) - last))
  | k + 1, last, S =>
    let j := m - k
    if S.getD j 0 = 0 then stuffLoop m k j (S.set last (BitVec.ofNat 8 (j - last)))
    else stuffLoop m k last S

/-- `stuff(B)` (R61). -/
def stuff (B : Bytes) : Bytes := stuffLoop B.length B.length 0 (0 :: B)

/-- The loop of `unstuff` (R70) with at most `fuel` rounds. `pos` is the position of the current code byte;
the sum `pos + b[pos]` is of natural numbers (R83). On non-zero bytes `|b|` rounds are enough, because `pos`
grows in each; a zero byte is never accumulated (R24), and would leave `pos` in place and be malformed
(DEDUCED, log entry 8). -/
def unstuffLoop (b : Bytes) : Nat → Nat → Bytes → Option Bytes
  | 0, _, _ => none
  | fuel + 1, pos, out =>
    let nxt := pos + (b.getD pos 0).toNat
    if nxt > b.length then none
    else if nxt = b.length then some out
    else unstuffLoop b fuel nxt (out.set (nxt - 1) 0)

/-- `unstuff(b)` (R70); `none` is `MALFORMED`. -/
def unstuff (b : Bytes) : Option Bytes := unstuffLoop b b.length 0 b.tail

/-- `check(b)` (R71): the chain first, then the sum, then the length (R159). -/
def check (minBlock : Nat) (b : Bytes) : Verdict :=
  match unstuff b with
  | none => .bad .checksumChain
  | some B =>
    if sumBytes B % 256 ≠ 0 then .bad .checksumSum
    else if B.length < minBlock then .bad .short
    else .good B.dropLast

/-- The frame of a payload: the stuffed block and one delimiter (R43, R62). -/
def frameOf (p : Bytes) : Bytes := stuff (p ++ [cks p]) ++ [0x00]

/-- The encoder (R62): the frame, or the refusal of a payload over `MAX_PAYLOAD`. -/
def encodeFrame (p : Bytes) : Except RefuseCause Bytes :=
  if p.length > Config.maxPayload then .error .tooLong else .ok (frameOf p)

/-! ### `rx_buf` -/

/-- The read of one cell; a cell at `rx_len` or above holds no value (10_state.md R11). -/
def Memory.read (m : Memory) (i : Nat) : Option Byte := m[i]?

/-- `MemRead(addr, n)` (00_scope.md R8): the `n` cells from `addr`, where all of them hold a value. -/
def Memory.readRange (m : Memory) (addr n : Nat) : Option Bytes :=
  if addr + n ≤ m.length then some ((m.drop addr).take n) else none

/-- `rx_buf[rx_len] <- b; rx_len <- rx_len + 1` (R72). -/
def Memory.store (m : Memory) (b : Byte) : Memory := m ++ [b]

/-- The canonical form of the buffer (R24): at most `RXCAP` bytes, none of them zero. -/
def Memory.wf (m : Memory) : Bool := decide (m.length ≤ Config.rxCap) && m.all (· != 0)

/-- `rx_len` (10_state.md R12). -/
def State.rxLen (s : State) : Nat := s.rxBuf.length

/-- The buffer replaced. -/
def State.setRx (s : State) (m : Memory) : State := { s with rxBuf := m }

/-! ### Ports -/

/-- The operation's result, on its port for this step (R17). -/
def State.respond (s : State) (r : Result) : State := { s with result := some r }

/-- The operation returns no value. -/
def State.respondNone (s : State) : State := { s with result := none }

/-- `emit(s)` (00_scope.md R8): the bytes appended to `ser_tx`, in order and contiguous (R31). -/
def State.emit (s : State) (bytes : Bytes) : State := { s with serTx := s.serTx ++ bytes }

/-- A message handed to the CAN controller (10_state.md R20; DEDUCED, log entry 15). -/
def State.transmit (s : State) (m : CanMsg) : State := { s with canTx := s.canTx ++ [m] }

/-- The lookup input `pt_present(sid)`; `pt_present(0)` is 0 (10_state.md R21; DEDUCED, log entry 11). -/
def State.ptLookup (s : State) (sid : BitVec 6) : Bool := sid != 0 && s.ptPresent.getLsbD sid.toNat

/-! ### Drops -/

/-- Taking a drop, exactly as R160 has it: `rx_len` to 0, one counter up with saturation, the event on
`dec_evt`, nothing delivered, saved or entered. There is nothing to return from (R161). -/
def takeDrop (c : DropCause) (s : State) : State :=
  ((s.setRx []).bump c.counter).respond (.dec (.drop c))

/-! ### `DEC.PUSH` -/

/-- A data byte: stored while there is room (R72), else an overflow (R73). -/
def pushData (b : Byte) (s : State) : State :=
  if s.rxLen < Config.rxCap then (s.setRx (s.rxBuf.store b)).respond (.dec .none)
  else takeDrop .overflow s

/-- A delimiter: the buffer is emptied in every case, and what it held is judged (R74, R75). -/
def pushDelimiter (s : State) : State :=
  if s.rxLen = 0 then (s.setRx []).respond (.dec .idle)
  else
    match check s.params.minBlock s.rxBuf with
    | .bad c => takeDrop c s
    | .good p => (s.setRx []).respond (.dec (.deliver p))

/-! ### Refusable operations -/

/-- The result of a stateless operation that can refuse (R155): its value, or the refusal. -/
def State.respondExcept {α : Type} (s : State) (wrap : α → Result) (r : Except RefuseCause α) : State :=
  match r with
  | .ok v => s.respond (wrap v)
  | .error c => s.respond (.refuse c)

/-! ### Bridging -/

/-- An unknown message is dropped and counted (R109). -/
def dropUnknown (r : Result) (s : State) : State := (s.bump .unknown).respond r

/-- `BRIDGE.S2C p` (R106), one atomic step (DESIGN CHOICE, log entry 1). The transmit result is passed on
unchanged, and nothing else depends on it (R105). -/
def bridgeS2C (p : Bytes) (s : State) : State :=
  match serSplit p with
  | .can id data =>
    if (stdUnpack s.params.sidW id).cls = .unknown then dropUnknown (.s2c .dropped) s
    else (s.transmit ⟨.std id, data⟩).respond (.s2c (.sent s.txOk))
  | .host sub args =>
    if hostClassify sub = .hostUnknown then dropUnknown (.s2c .dropped) s
    else s.respond (.s2c (.hostCmd (hostClassify sub) args))
  | .unknown _ => dropUnknown (.s2c .dropped) s

/-- The last lines of `BRIDGE.C2S` (R107): a routed standard message is framed for the Host. `ENC.FRAME` of
its payload is always accepted, 2 to 10 bytes (the other arm is never reached: log entry 16). -/
def forwardToHost (id : BitVec Config.stdW) (data : Bytes) (r : RouteRes) (s : State) : State :=
  match encodeFrame (serCanPayload id data) with
  | .ok f => (s.emit f).respond (.c2s (.forwarded r))
  | .error _ => s.respond (.c2s (.forwarded r))

/-- `BRIDGE.C2S msg` (R107), one atomic step (DESIGN CHOICE, log entry 1). -/
def bridgeC2S (m : CanMsg) (s : State) : State :=
  match m.id with
  | .ext id =>
    if (extUnpack id).kind = .unknown then dropUnknown (.c2s .dropped) s
    else s.respond (.c2s (.handLocal (extUnpack id) m.data))
  | .std id =>
    let u := stdUnpack s.params.sidW id
    if u.cls = .unknown then dropUnknown (.c2s .dropped) s
    else
      match rtRoute s.ptLookup u m.data with
      | .noop => s.respond (.c2s .noop)
      | .event sid opc data => forwardToHost id m.data (.event sid opc data) s

/-! ### Requests -/

/-- The next request taken from the environment: its side inputs stand on the ports for this step (R31). -/
def State.take (s : State) (r : Request) (rest : List Request) : State :=
  { s with pending := rest, ptPresent := r.ptPresent, txOk := r.txOk }

/-- What a transaction does that is no row of the opcode table. A reserved `op_sel` does nothing and
returns the refusal (R54, R150); a message or payload that cannot be classified is dropped and counted by
the bridge (R106, R107, R109); what is no value of the ports stops the model (DESIGN CHOICE, log entry 9). -/
def takeRejected (e : Reject) (s : State) : Host.Outcome State Fault Refusal :=
  match e with
  | .opReserved _ => .next (s.respond (.refuse .opReserved))
  | .stdUnknown _ => .next (dropUnknown (.c2s .dropped) s)
  | .extUnknown _ => .next (dropUnknown (.c2s .dropped) s)
  | .payloadUnknown _ => .next (dropUnknown (.s2c .dropped) s)
  | .illFormed => .fault .notATransaction

end Sys2Proof.Machine
end

