-- ==== Sys2Proof/Machine/Bridge.lean ====
section
/-! DEFINITION. The meanings of the wire code points of the opcode table. A message with a known id on
`can_rx` is bridged to the serial link (42_can_id_translator.md R107); a delivered payload of a known class
is bridged to the CAN bus or handed to the host-command software (R106). The delimiter stands in
Framer.lean. -/

namespace Sys2Proof.Machine

/-! ### Runtime opcodes (30_encoding.md R50) -/

/-- `LED`, opcode 0x1, from `can_rx`. -/
def execLed (sid : BitVec 6) (data : Bytes) (s : State) : Host.Outcome State Fault Refusal :=
  .next (bridgeC2S ⟨.std (stdIdOf s.params.sidW 0x1 sid.toNat), data⟩ s)

/-- `ADC`, opcode 0x2, from `can_rx`. -/
def execAdc (sid : BitVec 6) (data : Bytes) (s : State) : Host.Outcome State Fault Refusal :=
  .next (bridgeC2S ⟨.std (stdIdOf s.params.sidW 0x2 sid.toNat), data⟩ s)

/-- `SWITCH`, opcode 0x3, from `can_rx`. -/
def execSwitch (sid : BitVec 6) (data : Bytes) (s : State) : Host.Outcome State Fault Refusal :=
  .next (bridgeC2S ⟨.std (stdIdOf s.params.sidW 0x3 sid.toNat), data⟩ s)

/-- `QUADENC`, opcode 0x4, from `can_rx`. -/
def execQuadenc (sid : BitVec 6) (data : Bytes) (s : State) : Host.Outcome State Fault Refusal :=
  .next (bridgeC2S ⟨.std (stdIdOf s.params.sidW 0x4 sid.toNat), data⟩ s)

/-! ### Extended tags (R51) -/

/-- `DETECT_1`, tag 0x1F, from `can_rx`. -/
def execDetect1 (arg : BitVec Config.argW) (data : Bytes) (s : State) : Host.Outcome State Fault Refusal :=
  .next (bridgeC2S ⟨.ext (extIdOf 0x1F arg), data⟩ s)

/-- `DETECT_2`, tag 0x1E, from `can_rx`. -/
def execDetect2 (arg : BitVec Config.argW) (data : Bytes) (s : State) : Host.Outcome State Fault Refusal :=
  .next (bridgeC2S ⟨.ext (extIdOf 0x1E arg), data⟩ s)

/-- `DETECT_3`, tag 0x1D, from `can_rx`. -/
def execDetect3 (arg : BitVec Config.argW) (data : Bytes) (s : State) : Host.Outcome State Fault Refusal :=
  .next (bridgeC2S ⟨.ext (extIdOf 0x1D arg), data⟩ s)

/-- `DETECT_4`, tag 0x1C, from `can_rx`. -/
def execDetect4 (arg : BitVec Config.argW) (data : Bytes) (s : State) : Host.Outcome State Fault Refusal :=
  .next (bridgeC2S ⟨.ext (extIdOf 0x1C arg), data⟩ s)

/-- `ACK_ID`, tag 0x1B, from `can_rx`. -/
def execAckId (arg : BitVec Config.argW) (data : Bytes) (s : State) : Host.Outcome State Fault Refusal :=
  .next (bridgeC2S ⟨.ext (extIdOf 0x1B arg), data⟩ s)

/-- `BROADCAST`, tag 0x00, from `can_rx`. -/
def execBroadcast (arg : BitVec Config.argW) (data : Bytes) (s : State) : Host.Outcome State Fault Refusal :=
  .next (bridgeC2S ⟨.ext (extIdOf 0x00 arg), data⟩ s)

/-- `FIRMWARE`, tag 0x01, from `can_rx`. -/
def execFirmware (arg : BitVec Config.argW) (data : Bytes) (s : State) : Host.Outcome State Fault Refusal :=
  .next (bridgeC2S ⟨.ext (extIdOf 0x01 arg), data⟩ s)

/-! ### Delivered payloads (R44, R45, R52) -/

/-- `SERCAN`: a payload that carries a standard CAN message. -/
def execSercan (id : BitVec Config.stdW) (data : Bytes) (s : State) : Host.Outcome State Fault Refusal :=
  .next (bridgeS2C (serCanPayload id data) s)

/-- `SERHOST`: a host-command payload with any sub-command. -/
def execSerhost (sub : Byte) (args : Bytes) (s : State) : Host.Outcome State Fault Refusal :=
  .next (bridgeS2C (serHostPayload sub args) s)

/-- `NUM_PNLS`, sub-command 0x01. -/
def execNumPnls (args : Bytes) (s : State) : Host.Outcome State Fault Refusal :=
  .next (bridgeS2C (serHostPayload 0x01 args) s)

/-- `PNL_INFO`, sub-command 0x02. -/
def execPnlInfo (args : Bytes) (s : State) : Host.Outcome State Fault Refusal :=
  .next (bridgeS2C (serHostPayload 0x02 args) s)

/-- `RESET`, sub-command 0xFF: handed to the host-command software; it is not `RST` (R173). -/
def execReset (args : Bytes) (s : State) : Host.Outcome State Fault Refusal :=
  .next (bridgeS2C (serHostPayload 0xFF args) s)

end Sys2Proof.Machine
end

