-- ==== Sys2Proof/Machine/Framer.lean ====
section
/-! DEFINITION. The meanings of the framer's operations: reset (70_reset_and_hazards.md R170), the frame
encoder (40_framer_encode.md R62), the streaming decoder (41_framer_decode.md R72 to R75) with the
delimiter as a code point of the stream, and the counter read (R81). -/

namespace Sys2Proof.Machine

/-- `RST` (R170): the buffer and the four counters; no port is written and no value returned (DEDUCED, log
entry 13). -/
def execRst (s : State) : Host.Outcome State Fault Refusal :=
  .next
    { s with
      rxBuf := []
      cntOverflow := 0
      cntChecksum := 0
      cntShort := 0
      cntUnknown := 0
      result := none }

/-- `ENC.FRAME p` (R62). -/
def execEncFrame (p : Bytes) (s : State) : Host.Outcome State Fault Refusal :=
  match encodeFrame p with
  | .ok f => .next ((s.emit f).respond .encOk)
  | .error c => .next (s.respond (.refuse c))

/-- `DEC.PUSH b` (R72 to R75). -/
def execDecPush (b : Byte) (s : State) : Host.Outcome State Fault Refusal :=
  .next (if b = 0 then pushDelimiter s else pushData b s)

/-- `DELIM` on the stream: the delimiter case of `DEC.PUSH` (R74, R75). -/
def execDelim (s : State) : Host.Outcome State Fault Refusal := .next (pushDelimiter s)

/-- `CNT.READ sel` (R81): no side effect. -/
def execCntRead (sel : BitVec 2) (s : State) : Host.Outcome State Fault Refusal :=
  .next (s.respond (.count (s.count (counterOfSel sel))))

end Sys2Proof.Machine
end

