-- ==== Sys2Proof/Machine/Translator.lean ====
section
/-! DEFINITION. The meanings of the nine translator operations of 42_can_id_translator.md: each returns the
value of its pure function and writes no state (10_state.md R16). -/

namespace Sys2Proof.Machine

/-- `STD.PACK opc sid` (R91). -/
def execStdPack (opc : BitVec Config.opcW) (sid : Nat) (s : State) : Host.Outcome State Fault Refusal :=
  .next (s.respondExcept .stdId (stdPack s.params.sidW opc sid))

/-- `STD.UNPACK id11` (R92). -/
def execStdUnpack (id : BitVec Config.stdW) (s : State) : Host.Outcome State Fault Refusal :=
  .next (s.respond (.stdFields (stdUnpack s.params.sidW id)))

/-- `EXT.PACK tag arg` (R94). -/
def execExtPack (tag : BitVec Config.tagW) (arg : BitVec Config.argW) (s : State) :
    Host.Outcome State Fault Refusal :=
  .next (s.respondExcept .extId (extPack tag arg))

/-- `EXT.UNPACK id29` (R95). -/
def execExtUnpack (id : BitVec Config.extW) (s : State) : Host.Outcome State Fault Refusal :=
  .next (s.respond (.extFields (extUnpack id)))

/-- `SER.JOIN msg` (R97). -/
def execSerJoin (m : CanMsg) (s : State) : Host.Outcome State Fault Refusal :=
  .next (s.respondExcept .payload (serJoin m))

/-- `SER.SPLIT p` (R98). -/
def execSerSplit (p : Bytes) (s : State) : Host.Outcome State Fault Refusal :=
  .next (s.respond (.split (serSplit p)))

/-- `HOST.BUILD sub args` (R100). -/
def execHostBuild (sub : Byte) (args : Bytes) (s : State) : Host.Outcome State Fault Refusal :=
  .next (s.respondExcept .payload (hostBuild sub args))

/-- `HOST.CLASSIFY sub` (R101). -/
def execHostClassify (sub : Byte) (s : State) : Host.Outcome State Fault Refusal :=
  .next (s.respond (.hostCmd (hostClassify sub)))

/-- `RT.ROUTE u data` (R104), with the port `pt_present`. -/
def execRtRoute (u : StdFields) (data : Bytes) (s : State) : Host.Outcome State Fault Refusal :=
  .next (s.respond (.route (rtRoute s.ptLookup u data)))

end Sys2Proof.Machine
end

