-- ==== Sys2Proof/Machine/Dispatch.lean ====
section
/-! DEFINITION. One arm per constructor of `Instr`, each a direct call of its meaning. -/

namespace Sys2Proof.Machine

def exec (i : Instr) (s : State) : Host.Outcome State Fault Refusal :=
  match i with
  -- OPSEL
  | .rst => Sys2Proof.Machine.execRst s
  | .encFrame p => Sys2Proof.Machine.execEncFrame p s
  | .decPush b => Sys2Proof.Machine.execDecPush b s
  | .cntRead sel => Sys2Proof.Machine.execCntRead sel s
  | .stdPack opc sid => Sys2Proof.Machine.execStdPack opc sid s
  | .stdUnpack id => Sys2Proof.Machine.execStdUnpack id s
  | .extPack tag arg => Sys2Proof.Machine.execExtPack tag arg s
  | .extUnpack id => Sys2Proof.Machine.execExtUnpack id s
  | .serJoin msg => Sys2Proof.Machine.execSerJoin msg s
  | .serSplit p => Sys2Proof.Machine.execSerSplit p s
  | .hostBuild sub args => Sys2Proof.Machine.execHostBuild sub args s
  | .hostClassify sub => Sys2Proof.Machine.execHostClassify sub s
  | .rtRoute u data => Sys2Proof.Machine.execRtRoute u data s
  -- FRAME
  | .delim => Sys2Proof.Machine.execDelim s
  -- STD11
  | .led sid data => Sys2Proof.Machine.execLed sid data s
  | .adc sid data => Sys2Proof.Machine.execAdc sid data s
  | .switch sid data => Sys2Proof.Machine.execSwitch sid data s
  | .quadenc sid data => Sys2Proof.Machine.execQuadenc sid data s
  -- EXT29
  | .detect1 arg data => Sys2Proof.Machine.execDetect1 arg data s
  | .detect2 arg data => Sys2Proof.Machine.execDetect2 arg data s
  | .detect3 arg data => Sys2Proof.Machine.execDetect3 arg data s
  | .detect4 arg data => Sys2Proof.Machine.execDetect4 arg data s
  | .ackId arg data => Sys2Proof.Machine.execAckId arg data s
  | .broadcast arg data => Sys2Proof.Machine.execBroadcast arg data s
  | .firmware arg data => Sys2Proof.Machine.execFirmware arg data s
  -- SERCAN, SERHOST
  | .sercan id data => Sys2Proof.Machine.execSercan id data s
  | .serhost sub args => Sys2Proof.Machine.execSerhost sub args s
  | .numPnls args => Sys2Proof.Machine.execNumPnls args s
  | .pnlInfo args => Sys2Proof.Machine.execPnlInfo args s
  | .reset args => Sys2Proof.Machine.execReset args s

end Sys2Proof.Machine
end

