-- ==== Sys2Proof/Machine/Step.lean ====
section
/-! DEFINITION. One step: the environment's next request is taken, decoded and run as one atomic step
(20_memory.md R33). With no request the block waits (it never halts, 70_reset_and_hazards.md R187). -/

namespace Sys2Proof.Machine

/-- One step of the block. -/
def step (s : State) : Host.Outcome State Fault Refusal :=
  match s.pending with
  | [] => .next s.respondNone
  | r :: rest =>
    match decode s.params r.txn with
    | .ok i => exec i (s.take r rest)
    | .error e => takeRejected e (s.take r rest)

/-- The state with a word of the opcode table as the environment's next request, before those already
pending, sampled with the side inputs as they stand. -/
def State.withFetchWord (s : State) (nbits w : Nat) : State :=
  match tableTransaction nbits w with
  | none => s
  | some t => { s with pending := ⟨t, s.ptPresent, s.txOk⟩ :: s.pending }

end Sys2Proof.Machine
end

