-- ==== Sys2Proof/Safety.lean ====
section
/-! DEFINITION. What a safe state is (10_state.md R24), and how a run is observed (70_reset_and_hazards.md
R187): the results the steps return, in order, and the state they leave. -/

namespace Sys2Proof.Safety

open Sys2Proof.Machine

/-- The invariant of R24: the buffer holds at most `RXCAP` bytes, none of them zero, and every counter is
below 2^`CNT_W`. -/
def Inv (s : State) : Prop := s.rxBuf.wf = true ∧ ∀ c, s.count c < 2 ^ s.params.cntW

/-- A counter value `v` after one more event, in the words of 41_framer_decode.md R73: `v + 1`, or `v` when
`v` is 2^`CNT_W` - 1. -/
def counted (s : State) (v : Nat) : Nat := if v = 2 ^ s.params.cntW - 1 then v else v + 1

/-- `ENC.FRAME` and the nine translator operations: the operations without state of their own (10_state.md
R15, R16). -/
def stateless : Instr → Bool
  | .encFrame _ => true
  | .stdPack _ _ => true
  | .stdUnpack _ => true
  | .extPack _ _ => true
  | .extUnpack _ => true
  | .serJoin _ => true
  | .serSplit _ => true
  | .hostBuild _ _ => true
  | .hostClassify _ => true
  | .rtRoute _ _ => true
  | .rst => false
  | .decPush _ => false
  | .cntRead _ => false
  | .delim => false
  | .led _ _ => false
  | .adc _ _ => false
  | .switch _ _ => false
  | .quadenc _ _ => false
  | .detect1 _ _ => false
  | .detect2 _ _ => false
  | .detect3 _ _ => false
  | .detect4 _ _ => false
  | .ackId _ _ => false
  | .broadcast _ _ => false
  | .firmware _ _ => false
  | .sercan _ _ => false
  | .serhost _ _ => false
  | .numPnls _ => false
  | .pnlInfo _ => false
  | .reset _ => false

/-- The operation `DEC.PUSH b` as a request (`op_sel` 0x2), the side inputs standing as they do in `s`. -/
def pushRequest (s : State) (b : Byte) : Request := ⟨.op 0x2 { serRx := b }, s.ptPresent, s.txOk⟩

/-- The state with `DEC.PUSH` of each byte of a sequence presented, in order, before everything else that is
pending. -/
def pushing (s : State) (bytes : Bytes) : State :=
  { s with pending := bytes.map (pushRequest s) ++ s.pending }

/-- What the next `n` steps return, in order (R187); a step that stops ends the list. -/
def results : Nat → State → List (Option Result)
  | 0, _ => []
  | n + 1, s =>
    match step s with
    | .next t => t.result :: results n t
    | .fault _ => []
    | .refused _ => []

/-- The state after `n` steps, or where the machine stopped. -/
def after (n : Nat) (s : State) : Host.Outcome State Fault Refusal := Sys2Proof.core.run n s

/-- An event of the decoder as a returned result. -/
def event (e : DecEvt) : Option Result := some (.dec e)

end Sys2Proof.Safety
end

