-- ==== Sys2Proof/Certificates/Slice0/Obligations.lean ====
section
/-! DEFINITION. The statements for the provers. Numbers of rules are those of spec/; a clause that rests on
a choice of the model names its log entry. -/

open Sys2Proof Sys2Proof.Machine Sys2Proof.Safety

/-! ### Decoding and stepping -/

/-- The decoder reads back every well-formed instruction, on its port, with every operand (the ports of the
operands are the model's, log entry 4). -/
def Obligations.DecodeOfEncode : Prop :=
  ∀ (pr : Params) (i : Instr), i.wellFormed pr = true → decode pr (encode pr i) = .ok i

/-- No bit of a CAN message, of a delivered payload or of the delimiter is dropped by the decoder: what it
reads encodes to what arrived. -/
def Obligations.EncodeOfDecodedArrival : Prop :=
  ∀ (pr : Params) (i : Instr),
    (∀ m, decode pr (.canRx m) = .ok i → encode pr i = .canRx m) ∧
    (∀ p, decode pr (.payload p) = .ok i → encode pr i = .payload p) ∧
    (decode pr (.serRx 0) = .ok i → encode pr i = .serRx 0)

/-- A few words of the opcode table decode to their rows. -/
def Obligations.TableWordsDecode : Prop :=
  decodeTableWord 8 0x2 = some (.decPush 0) ∧
  decodeTableWord 16 0x065 = some (.switch 5 []) ∧
  decodeTableWord 32 0x1FABCDEF = some (.detect1 0xABCDEF []) ∧
  decodeTableWord 16 0xFF02 = some (.pnlInfo []) ∧
  decodeTableWord 16 0x07FF = some (.sercan 0x7FF [])

/-- A step runs the decoded instruction, with the request taken from the environment's list and its side
inputs on the ports (log entry 5, the model's choice). -/
def Obligations.StepRunsDecodedInstruction : Prop :=
  ∀ (s : State) (r : Request) (rest : List Request) (i : Instr),
    s.pending = r :: rest → decode s.params r.txn = .ok i →
    step s = exec i { s with pending := rest, ptPresent := r.ptPresent, txOk := r.txOk }

/-- With nothing pending the block waits: no result, nothing else changed (log entry 5, the model's
choice). -/
def Obligations.StepWithoutRequestWaits : Prop :=
  ∀ s : State, s.pending = [] → step s = .next { s with result := none }

/-- A reserved `op_sel` does nothing but return the refusal. -/
def Obligations.ReservedSelectorIsRefused : Prop :=
  ∀ (s : State) (sel : BitVec 4) (a : Operands) (pt : BitVec 64) (ok : Bool) (rest : List Request),
    s.pending = ⟨.op sel a, pt, ok⟩ :: rest → 0xD ≤ sel.toNat →
    step s = .next
      { s with pending := rest, ptPresent := pt, txOk := ok, result := some (.refuse .opReserved) }

/-- The block never halts: every request that is a value of the ports has a next state. -/
def Obligations.BlockNeverHalts : Prop :=
  ∀ s : State,
    (∀ r ∈ s.pending.head?, decode s.params r.txn ≠ .error .illFormed) → ∃ t, step s = .next t

/-- Every message from `can_rx` and every delivered payload is bridged, known or not (that an arrival is an
instruction is the model's choice, log entry 4). -/
def Obligations.StepBridgesEveryMessage : Prop :=
  ∀ (s : State) (pt : BitVec 64) (ok : Bool) (rest : List Request),
    (∀ m : CanMsg, m.data.length ≤ 8 → s.pending = ⟨.canRx m, pt, ok⟩ :: rest →
      step s = .next (bridgeC2S m { s with pending := rest, ptPresent := pt, txOk := ok })) ∧
    (∀ p : Bytes, s.pending = ⟨.payload p, pt, ok⟩ :: rest →
      step s = .next (bridgeS2C p { s with pending := rest, ptPresent := pt, txOk := ok }))

/-! ### Reset and invariants -/

/-- The values R23 gives after reset, for every value of the parameters. -/
def Obligations.ResetValues : Prop :=
  ∀ s : State, (s = State.reset ∨ ∃ pr, s = State.resetWith pr) →
    s.rxLen = 0 ∧ s.cntOverflow = 0 ∧ s.cntChecksum = 0 ∧ s.cntShort = 0 ∧ s.cntUnknown = 0

/-- `RST`, in any state: the buffer and the four counters as they are at power-on (R170, R23); no other
instruction lowers a counter. That `RST` returns nothing and leaves the ports, the streams and the requests as
they are is the model's reading (DEDUCED, log entry 13). -/
def Obligations.RstClearsBufferAndCounters : Prop :=
  ∀ s : State,
    exec .rst s = .next
      { s with
        rxBuf := [], cntOverflow := 0, cntChecksum := 0, cntShort := 0, cntUnknown := 0, result := none } ∧
    (State.resetWith s.params).rxBuf = [] ∧ (∀ c, (State.resetWith s.params).count c = 0) ∧
    ∀ (i : Instr) (t : State) (c : Counter), exec i s = .next t → t.count c < s.count c → i = .rst

/-- The state after reset meets the invariant. -/
def Obligations.ResetMeetsInvariant : Prop := ∀ pr : Params, Inv (State.resetWith pr)

/-- The invariant of R24 is kept by every step from every state that meets it. -/
def Obligations.StepKeepsInvariant : Prop :=
  ∀ s t : State, Inv s → step s = .next t → Inv t

/-- No counter falls in a step that does not run `RST`. -/
def Obligations.CountersFallOnlyByReset : Prop :=
  ∀ (s t : State) (c : Counter), step s = .next t → t.count c < s.count c →
    ∃ r rest, s.pending = r :: rest ∧ decode s.params r.txn = .ok .rst

/-- A step only appends to the two output streams. That it writes no parameter is the model's choice (log
entry 2), and so is that it takes the next request, if there is one, from the list (log entry 5). -/
def Obligations.StepOnlyAppendsToStreams : Prop :=
  ∀ s t : State, step s = .next t →
    t.params = s.params ∧ t.pending = s.pending.tail ∧
    (∃ f, t.serTx = s.serTx ++ f) ∧ (∃ ms, t.canTx = s.canTx ++ ms)

/-! ### The frame encoder -/

/-- `cks` is the negation of the 8-bit sum, and the one byte that makes the sum 0 mod 256. -/
def Obligations.ChecksumIsTheUniqueByte : Prop :=
  ∀ (p : Bytes) (c : Byte),
    (cks p).toNat = (256 - sumBytes p % 256) % 256 ∧ cks p = -BitVec.ofNat 8 (sumBytes p) ∧
    (sumBytes (p ++ [c]) % 256 = 0 ↔ c = cks p)

/-- The layout of the stuffed block: a code byte holds the distance to the next zero of the block, or to the
position after the end; every other position holds the block's byte. -/
def Obligations.StuffedLayout : Prop :=
  ∀ B : Bytes, 1 ≤ B.length → B.length ≤ 12 →
    (stuff B).length = B.length + 1 ∧
    (∀ j, 1 ≤ j → j ≤ B.length → B.getD (j - 1) 0 ≠ 0 →
      (stuff B).getD j 0 = B.getD (j - 1) 0) ∧
    (∀ j, j ≤ B.length → (j = 0 ∨ B.getD (j - 1) 0 = 0) →
      (∀ nxt, j < nxt → nxt ≤ B.length → B.getD (nxt - 1) 0 = 0 →
        (∀ k, j < k → k < nxt → B.getD (k - 1) 0 ≠ 0) →
        ((stuff B).getD j 0).toNat = nxt - j) ∧
      ((∀ k, j < k → k ≤ B.length → B.getD (k - 1) 0 ≠ 0) →
        ((stuff B).getD j 0).toNat = B.length + 1 - j))

/-- The properties (a), (b), (e) and (f) of `stuff`: one byte longer, no zero byte, the sum up by the new
length, different for different blocks and inverted by `unstuff`. -/
def Obligations.StuffProperties : Prop :=
  ∀ B : Bytes, 1 ≤ B.length → B.length ≤ 12 →
    (stuff B).length = B.length + 1 ∧ (∀ x ∈ stuff B, x ≠ 0) ∧
    sumBytes (stuff B) = sumBytes B + B.length + 1 ∧
    (∀ B' : Bytes, 1 ≤ B'.length → B'.length ≤ 12 → stuff B' = stuff B → B' = B) ∧
    unstuff (stuff B) = some B

/-- `ENC.FRAME`: the frame with the byte that makes the sum 0 mod 256, or the refusal; nothing else
changes. -/
def Obligations.EncFrameEmitsFrameOrRefuses : Prop :=
  ∀ (s : State) (p : Bytes) (c : Byte), sumBytes (p ++ [c]) % 256 = 0 →
    (p.length ≤ 11 →
      exec (.encFrame p) s = .next
        { s with serTx := s.serTx ++ (stuff (p ++ [c]) ++ [0x00]), result := some .encOk }) ∧
    (11 < p.length → exec (.encFrame p) s = .next { s with result := some (.refuse .tooLong) })

/-- The laws of the frame: its length, its one zero byte at the end, its sum, and that two payloads never
share a frame. -/
def Obligations.FrameLaws : Prop :=
  ∀ (s t : State) (p F : Bytes), p.length ≤ 11 →
    exec (.encFrame p) s = .next t → t.serTx = s.serTx ++ F →
    F.length = p.length + 3 ∧
    (F.getLast? = some 0x00 ∧ ∀ x ∈ F.dropLast, x ≠ 0) ∧
    sumBytes F % 256 = (F.length - 1) % 256 ∧
    (∀ (q : Bytes) (u : State), q.length ≤ 11 → q ≠ p →
      exec (.encFrame q) s = .next u → u.serTx ≠ s.serTx ++ F)

/-! ### The streaming decoder -/

/-- A data byte with room is stored. -/
def Obligations.PushStoresDataByte : Prop :=
  ∀ (s : State) (b : Byte), b ≠ 0 → s.rxLen < 13 →
    exec (.decPush b) s = .next { s with rxBuf := s.rxBuf ++ [b], result := event .none }

/-- A data byte with no room: overflow, the byte itself discarded too. -/
def Obligations.PushOverflowDiscardsAndCounts : Prop :=
  ∀ (s : State) (b : Byte), Inv s → b ≠ 0 → s.rxLen = 13 →
    exec (.decPush b) s = .next
      { s with rxBuf := [], cntOverflow := counted s s.cntOverflow, result := event (.drop .overflow) }

/-- A delimiter with nothing accumulated is idle. -/
def Obligations.DelimiterOnEmptyIsIdle : Prop :=
  ∀ s : State, s.rxLen = 0 → exec (.decPush 0) s = .next { s with result := event .idle }

/-- The row `DELIM` completes in every state and leaves what `DEC.PUSH` of the byte 0x00 leaves; a byte
arriving on `ser_rx` is pushed (log entry 4). -/
def Obligations.SerialByteIsPushed : Prop :=
  (∀ s : State, ∃ t, exec .delim s = .next t ∧ exec (.decPush 0) s = .next t ∧ t.rxLen = 0) ∧
  (∀ (s : State) (b : Byte) (pt : BitVec 64) (ok : Bool) (rest : List Request),
    s.pending = ⟨.serRx b, pt, ok⟩ :: rest →
    step s = exec (.decPush b) { s with pending := rest, ptPresent := pt, txOk := ok })

/-- A delimiter judges what was accumulated: the chain, then the sum, then the length; the buffer is emptied
in every case. -/
def Obligations.DelimiterJudgesAccumulation : Prop :=
  ∀ s : State, Inv s →
    (s.rxLen = 0 → exec (.decPush 0) s = .next { s with rxBuf := [], result := event .idle }) ∧
    (s.rxLen ≠ 0 → unstuff s.rxBuf = none →
      exec (.decPush 0) s = .next
        { s with
          rxBuf := [], cntChecksum := counted s s.cntChecksum, result := event (.drop .checksumChain) }) ∧
    (s.rxLen ≠ 0 → ∀ B, unstuff s.rxBuf = some B →
      (sumBytes B % 256 ≠ 0 →
        exec (.decPush 0) s = .next
          { s with
            rxBuf := [], cntChecksum := counted s s.cntChecksum, result := event (.drop .checksumSum) }) ∧
      (sumBytes B % 256 = 0 → B.length < s.params.minBlock →
        exec (.decPush 0) s = .next
          { s with rxBuf := [], cntShort := counted s s.cntShort, result := event (.drop .short) }) ∧
      (sumBytes B % 256 = 0 → s.params.minBlock ≤ B.length → ∀ (p : Bytes) (c : Byte), B = p ++ [c] →
        exec (.decPush 0) s = .next { s with rxBuf := [], result := event (.deliver p) } ∧
        s.params.minBlock ≤ p.length + 1 ∧ p.length ≤ 11))

/-- What a delivery tells: the payload's length lies between `MIN_BLOCK` - 1 and 11, it is what the sender's
frame of it would have delivered, and no counter changed. -/
def Obligations.DeliveredPayloadIsFramed : Prop :=
  ∀ (s t : State) (p : Bytes), Inv s → 1 ≤ s.params.minBlock → exec (.decPush 0) s = .next t →
    t.result = event (.deliver p) →
    s.params.minBlock - 1 ≤ p.length ∧ p.length ≤ 11 ∧ s.rxBuf ++ [0] = frameOf p ∧
    ∀ c, t.count c = s.count c

/-- `unstuff` accepts exactly what `stuff` produces, and is its inverse there. -/
def Obligations.UnstuffAcceptsExactlyStuffed : Prop :=
  ∀ b : Bytes, b ≠ [] → b.length ≤ 255 → (∀ x ∈ b, x ≠ 0) →
    ∀ B : Bytes, unstuff b = some B ↔ stuff B = b

/-- The sum law of a well-formed accumulation. -/
def Obligations.SumLawOfChain : Prop :=
  ∀ b B : Bytes, unstuff b = some B →
    sumBytes b = sumBytes B + b.length ∧
    (sumBytes B % 256 = 0 ↔ sumBytes b % 256 = b.length % 256)

/-- The round trip through the stream: the frame of a payload, pushed byte by byte on an empty buffer, is
stored without an event and its delimiter delivers the payload, or drops it as short; the inner functions
round-trip whatever the length. -/
def Obligations.FrameRoundTrip : Prop :=
  ∀ (s : State) (p : Bytes), s.rxBuf = [] → p.length ≤ 11 →
    unstuff (stuff (p ++ [cks p])) = some (p ++ [cks p]) ∧
    (s.params.minBlock ≤ p.length + 1 →
      results (p.length + 3) (pushing s (frameOf p)) =
        List.replicate (p.length + 2) (event .none) ++ [event (.deliver p)] ∧
      after (p.length + 3) (pushing s (frameOf p)) = .next { s with result := event (.deliver p) }) ∧
    (p.length + 1 < s.params.minBlock → s.cntShort < 2 ^ s.params.cntW →
      results (p.length + 3) (pushing s (frameOf p)) =
        List.replicate (p.length + 2) (event .none) ++ [event (.drop .short)] ∧
      after (p.length + 3) (pushing s (frameOf p)) =
        .next { s with cntShort := counted s s.cntShort, result := event (.drop .short) })

/-- One flipped bit before the delimiter that leaves its byte non-zero is never delivered (R80 (a)): the
delimiter step reports a checksum error, and a bad sum when the byte was a data byte. -/
def Obligations.SingleBitFlipIsCaught : Prop :=
  ∀ (s : State) (p : Bytes) (i k : Nat), s.rxBuf = [] → 3 ≤ p.length → p.length ≤ 11 →
    i < p.length + 2 → k < 8 → (frameOf p).getD i 0 ^^^ BitVec.ofNat 8 (2 ^ k) ≠ 0 →
    let flipped := (frameOf p).set i ((frameOf p).getD i 0 ^^^ BitVec.ofNat 8 (2 ^ k))
    (results (p.length + 3) (pushing s flipped) =
        List.replicate (p.length + 2) (event .none) ++ [event (.drop .checksumSum)] ∨
      results (p.length + 3) (pushing s flipped) =
        List.replicate (p.length + 2) (event .none) ++ [event (.drop .checksumChain)]) ∧
    (1 ≤ i → (p ++ [cks p]).getD (i - 1) 0 ≠ 0 →
      results (p.length + 3) (pushing s flipped) =
        List.replicate (p.length + 2) (event .none) ++ [event (.drop .checksumSum)])

/-- The systematic case of a flip that makes a delimiter (R179): a payload whose first byte is 0 loses it, and
the rest is delivered, or dropped as short and counted where it is too short to be delivered. -/
def Obligations.LostLeadingZeroIsDelivered : Prop :=
  ∀ (s : State) (q : Bytes), s.rxBuf = [] → q.length ≤ 10 →
    let damaged := (frameOf (0 :: q)).set 0 0x00
    (frameOf (0 :: q)).head? = some 0x01 ∧
    (s.params.minBlock ≤ q.length + 1 →
      results (q.length + 4) (pushing s damaged) =
        event .idle :: (List.replicate (q.length + 2) (event .none) ++ [event (.deliver q)]) ∧
      after (q.length + 4) (pushing s damaged) = .next { s with result := event (.deliver q) }) ∧
    (q.length + 1 < s.params.minBlock → s.cntShort < 2 ^ s.params.cntW →
      results (q.length + 4) (pushing s damaged) =
        event .idle :: (List.replicate (q.length + 2) (event .none) ++ [event (.drop .short)]) ∧
      after (q.length + 4) (pushing s damaged) =
        .next { s with cntShort := counted s s.cntShort, result := event (.drop .short) })

/-- Resynchronisation (R82): after one delimiter, in any state, the buffer is empty, and the next frame of a
payload of `MIN_BLOCK` - 1 to 11 bytes is delivered. -/
def Obligations.DelimiterResynchronises : Prop :=
  ∀ (s : State),
    (∃ t, exec (.decPush 0) s = .next t ∧ t.rxLen = 0) ∧
    ∀ p : Bytes, s.params.minBlock ≤ p.length + 1 → p.length ≤ 11 →
      ∃ t, after (p.length + 4) (pushing s (0x00 :: frameOf p)) = .next t ∧
        t.result = event (.deliver p) ∧ t.rxLen = 0 ∧ t.pending = s.pending

/-- The movement of `rx_len`: the decoder is total, and one byte moves it up by one or to 0. -/
def Obligations.BufferLengthMoves : Prop :=
  ∀ (s : State) (b : Byte), s.rxLen ≤ 13 →
    ∃ t, exec (.decPush b) s = .next t ∧
      t.rxLen = if b = 0 then 0 else if s.rxLen = 13 then 0 else s.rxLen + 1

/-- `CNT.READ` returns the selected counter and changes nothing. -/
def Obligations.CntReadReturnsCounter : Prop :=
  ∀ s : State,
    exec (.cntRead 0) s = .next { s with result := some (.count s.cntOverflow) } ∧
    exec (.cntRead 1) s = .next { s with result := some (.count s.cntChecksum) } ∧
    exec (.cntRead 2) s = .next { s with result := some (.count s.cntShort) } ∧
    exec (.cntRead 3) s = .next { s with result := some (.count s.cntUnknown) }

/-! ### Operations without state -/

/-- A stateless operation and `DEC.PUSH` commute: each returns the same in either order, and the states left
differ in the last result only. -/
def Obligations.StatelessCommutesWithPush : Prop :=
  ∀ (s a b c d : State) (i : Instr) (x : Byte), stateless i = true →
    exec i s = .next a → exec (.decPush x) a = .next b →
    exec (.decPush x) s = .next c → exec i c = .next d →
    a.result = d.result ∧ b.result = c.result ∧ { b with result := none } = { d with result := none }

/-- A stateless operation writes its result and, for `ENC.FRAME`, the stream `ser_tx`; what it writes depends,
for given parameters, on its operands alone, and for `RT.ROUTE` on `pt_present` too (R15, R16). -/
def Obligations.StatelessDependsOnOperandsAlone : Prop :=
  ∀ (s t : State) (i : Instr), stateless i = true → exec i s = .next t →
    (∃ f, t = { s with serTx := s.serTx ++ f, result := t.result } ∧ ((∀ p, i ≠ .encFrame p) → f = []) ∧
      ∀ s' t' : State, s'.params = s.params →
        (∀ u d, i = .rtRoute u d → s'.ptPresent = s.ptPresent) → exec i s' = .next t' →
        t' = { s' with serTx := s'.serTx ++ f, result := t.result })

/-! ### Identifiers -/

/-- `STD.PACK`: the opcode is tested first, then the short id; else the id is opcode times 2^`SID_W` plus
short id. -/
def Obligations.StdPackResult : Prop :=
  ∀ (s : State) (opc : BitVec 4) (sid : Nat),
    (¬(1 ≤ opc.toNat ∧ opc.toNat ≤ 4) →
      exec (.stdPack opc sid) s = .next { s with result := some (.refuse .opcReserved) }) ∧
    (1 ≤ opc.toNat → opc.toNat ≤ 4 → (sid = 0 ∨ 2 ^ s.params.sidW.bits - 1 < sid) →
      exec (.stdPack opc sid) s = .next { s with result := some (.refuse .sidRange) }) ∧
    (1 ≤ opc.toNat → opc.toNat ≤ 4 → 1 ≤ sid → sid ≤ 2 ^ s.params.sidW.bits - 1 →
      ∃ id : BitVec 11, id.toNat = opc.toNat * 2 ^ s.params.sidW.bits + sid ∧
        exec (.stdPack opc sid) s = .next { s with result := some (.stdId id) })

/-- `STD.UNPACK`: the three fields of the id, and the class they give. -/
def Obligations.StdUnpackResult : Prop :=
  ∀ (s : State) (id : BitVec 11), ∃ u : StdFields,
    exec (.stdUnpack id) s = .next { s with result := some (.stdFields u) } ∧
    u.sid.toNat = id.toNat % 2 ^ s.params.sidW.bits ∧
    u.opc.toNat = id.toNat / 2 ^ s.params.sidW.bits % 16 ∧
    u.rsv.toNat = id.toNat / 2 ^ (s.params.sidW.bits + 4) ∧
    (u.cls = .runtime ↔ u.rsv = 0 ∧ 1 ≤ u.opc.toNat ∧ u.opc.toNat ≤ 4)

/-- Packing and unpacking a standard id are mutually inverse. -/
def Obligations.StdPackUnpackInverse : Prop :=
  (∀ (w : SidW) (opc : BitVec 4) (sid : BitVec 6), 1 ≤ opc.toNat → opc.toNat ≤ 4 →
    1 ≤ sid.toNat → sid.toNat ≤ 2 ^ w.bits - 1 →
    ∃ id, stdPack w opc sid.toNat = .ok id ∧ stdUnpack w id = ⟨.runtime, opc, sid, 0⟩) ∧
  (∀ (w : SidW) (id : BitVec 11), (stdUnpack w id).cls = .runtime → (stdUnpack w id).sid ≠ 0 →
    stdPack w (stdUnpack w id).opc (stdUnpack w id).sid.toNat = .ok id)

/-- `EXT.PACK`: a reserved tag is refused; else the id is tag times 2^24 plus argument. -/
def Obligations.ExtPackResult : Prop :=
  ∀ (s : State) (tag : BitVec 5) (arg : BitVec 24),
    (tag.toNat ∈ [0x1F, 0x1E, 0x1D, 0x1C, 0x1B, 0x00, 0x01] →
      ∃ id : BitVec 29, id.toNat = tag.toNat * 2 ^ 24 + arg.toNat ∧
        exec (.extPack tag arg) s = .next { s with result := some (.extId id) }) ∧
    (tag.toNat ∉ [0x1F, 0x1E, 0x1D, 0x1C, 0x1B, 0x00, 0x01] →
      exec (.extPack tag arg) s = .next { s with result := some (.refuse .tagReserved) })

/-- `EXT.UNPACK`: the two fields of the id, and the kind the tag names. -/
def Obligations.ExtUnpackResult : Prop :=
  ∀ (s : State) (id : BitVec 29), ∃ k : ExtFields,
    exec (.extUnpack id) s = .next { s with result := some (.extFields k) } ∧
    k.tag.toNat = id.toNat / 2 ^ 24 ∧ k.arg.toNat = id.toNat % 2 ^ 24 ∧
    (k.kind = .detect1 ↔ k.tag.toNat = 0x1F) ∧ (k.kind = .detect2 ↔ k.tag.toNat = 0x1E) ∧
    (k.kind = .detect3 ↔ k.tag.toNat = 0x1D) ∧ (k.kind = .detect4 ↔ k.tag.toNat = 0x1C) ∧
    (k.kind = .ackId ↔ k.tag.toNat = 0x1B) ∧ (k.kind = .broadcast ↔ k.tag.toNat = 0x00) ∧
    (k.kind = .firmware ↔ k.tag.toNat = 0x01) ∧
    (k.kind = .unknown ↔ 0x02 ≤ k.tag.toNat ∧ k.tag.toNat ≤ 0x1A)

/-- Packing and unpacking an extended id are mutually inverse. -/
def Obligations.ExtPackUnpackInverse : Prop :=
  (∀ (tag : BitVec 5) (arg : BitVec 24), tagKind tag ≠ .unknown →
    ∃ id, extPack tag arg = .ok id ∧ extUnpack id = ⟨tagKind tag, tag, arg⟩) ∧
  (∀ id : BitVec 29, (extUnpack id).kind ≠ .unknown →
    extPack (extUnpack id).tag (extUnpack id).arg = .ok id)

/-! ### The serial payload and host commands -/

/-- `SER.JOIN`: the two id bytes, high byte first, then the data; an extended message is refused. -/
def Obligations.SerJoinResult : Prop :=
  ∀ (s : State) (data : Bytes),
    (∀ id : BitVec 29,
      exec (.serJoin ⟨.ext id, data⟩) s = .next { s with result := some (.refuse .extOnSerial) }) ∧
    (∀ (id : BitVec 11) (hi lo : Byte), id.toNat = hi.toNat * 256 + lo.toNat →
      exec (.serJoin ⟨.std id, data⟩) s = .next { s with result := some (.payload (hi :: lo :: data)) })

/-- `SER.SPLIT`, test by test in the rule's order. -/
def Obligations.SerSplitResult : Prop :=
  ∀ (s : State) (p : Bytes),
    (p.length < 2 → exec (.serSplit p) s = .next { s with result := some (.split (.unknown .noId)) }) ∧
    (∀ (hi lo : Byte) (rest : Bytes), p = hi :: lo :: rest →
      (hi = 0xFF → exec (.serSplit p) s = .next { s with result := some (.split (.host lo rest)) }) ∧
      (hi ≠ 0xFF → 0x07FF < hi.toNat * 256 + lo.toNat →
        exec (.serSplit p) s = .next { s with result := some (.split (.unknown .idReserved)) }) ∧
      (hi.toNat * 256 + lo.toNat ≤ 0x07FF → 8 < rest.length →
        exec (.serSplit p) s = .next { s with result := some (.split (.unknown .dataTooLong)) }) ∧
      (∀ id : BitVec 11, id.toNat = hi.toNat * 256 + lo.toNat → rest.length ≤ 8 →
        exec (.serSplit p) s = .next { s with result := some (.split (.can id rest)) }))

/-- Joining and splitting are mutually inverse on standard messages, and the whole way from opcode, short id
and data to a payload and back returns them. -/
def Obligations.SerialInverse : Prop :=
  (∀ (id : BitVec 11) (data : Bytes), data.length ≤ 8 →
    ∃ p, serJoin ⟨.std id, data⟩ = .ok p ∧ serSplit p = .can id data) ∧
  (∀ (p : Bytes) (id : BitVec 11) (data : Bytes), serSplit p = .can id data →
    serJoin ⟨.std id, data⟩ = .ok p) ∧
  (∀ (w : SidW) (opc : BitVec 4) (sid : BitVec 6) (data : Bytes), 1 ≤ opc.toNat → opc.toNat ≤ 4 →
    1 ≤ sid.toNat → sid.toNat ≤ 2 ^ w.bits - 1 → data.length ≤ 8 →
    ∃ id p id', stdPack w opc sid.toNat = .ok id ∧ serJoin ⟨.std id, data⟩ = .ok p ∧
      serSplit p = .can id' data ∧ stdUnpack w id' = ⟨.runtime, opc, sid, 0⟩)

/-- A payload of two bytes or more is a host command exactly when its byte 0 is 0xFF, and no payload that
carries a CAN message has byte 0 above 0x07. -/
def Obligations.HostExactlyWhenSentinel : Prop :=
  (∀ (b0 b1 : Byte) (rest : Bytes),
    (∃ sub args, serSplit (b0 :: b1 :: rest) = .host sub args) ↔ b0 = 0xFF) ∧
  (∀ (m : CanMsg) (p : Bytes), serJoin m = .ok p → ∃ b0 rest, p = b0 :: rest ∧ b0.toNat ≤ 0x07)

/-- `HOST.BUILD`: the sub-command is tested first, then the length; else the payload. -/
def Obligations.HostBuildResult : Prop :=
  ∀ (s : State) (sub : Byte) (args : Bytes),
    (sub ≠ 0x01 → sub ≠ 0x02 → sub ≠ 0xFF →
      exec (.hostBuild sub args) s = .next { s with result := some (.refuse .subReserved) }) ∧
    (sub = 0x01 ∨ sub = 0x02 ∨ sub = 0xFF →
      (9 < args.length →
        exec (.hostBuild sub args) s = .next { s with result := some (.refuse .tooLong) }) ∧
      (args.length ≤ 9 →
        exec (.hostBuild sub args) s = .next { s with result := some (.payload (0xFF :: sub :: args)) }))

/-- `HOST.CLASSIFY` names the three sub-commands and no other. -/
def Obligations.HostClassifyResult : Prop :=
  ∀ s : State,
    exec (.hostClassify 0x01) s = .next { s with result := some (.hostCmd .numPnls) } ∧
    exec (.hostClassify 0x02) s = .next { s with result := some (.hostCmd .pnlInfo) } ∧
    exec (.hostClassify 0xFF) s = .next { s with result := some (.hostCmd .reset) } ∧
    ∀ sub : Byte, sub ≠ 0x01 → sub ≠ 0x02 → sub ≠ 0xFF →
      exec (.hostClassify sub) s = .next { s with result := some (.hostCmd .hostUnknown) }

/-- `RT.ROUTE`: an event for a runtime id whose short id has a PanelTable row, and a no-op else, always so
for short id 0. -/
def Obligations.RtRouteResult : Prop :=
  ∀ (s : State) (u : StdFields) (data : Bytes),
    (u.cls = .runtime → u.sid ≠ 0 → s.ptPresent.getLsbD u.sid.toNat = true →
      exec (.rtRoute u data) s = .next { s with result := some (.route (.event u.sid u.opc data)) }) ∧
    (u.cls ≠ .runtime ∨ u.sid = 0 ∨ s.ptPresent.getLsbD u.sid.toNat = false →
      exec (.rtRoute u data) s = .next { s with result := some (.route .noop) })

/-! ### Bridging

That the arrival of a message or payload is an instruction, and runs the bridging composition as one step, is
the model's reading (log entries 1 and 4). -/

/-- The four runtime messages (log entry 4): forwarded to the Host as one frame when the panel has a row, else
nothing. -/
def Obligations.RuntimeMessageForwardedOrNoop : Prop :=
  ∀ (s : State) (i : Instr) (opc : BitVec 4) (sid : BitVec 6) (data : Bytes) (hi lo : Byte),
    (i = .led sid data ∧ opc = 1 ∨ i = .adc sid data ∧ opc = 2 ∨
      i = .switch sid data ∧ opc = 3 ∨ i = .quadenc sid data ∧ opc = 4) →
    sid.toNat < 2 ^ s.params.sidW.bits → data.length ≤ 8 →
    hi.toNat * 256 + lo.toNat = opc.toNat * 2 ^ s.params.sidW.bits + sid.toNat →
    (sid ≠ 0 → s.ptPresent.getLsbD sid.toNat = true →
      exec i s = .next
        { s with
          serTx := s.serTx ++ frameOf (hi :: lo :: data)
          result := some (.c2s (.forwarded (.event sid opc data))) }) ∧
    (sid = 0 ∨ s.ptPresent.getLsbD sid.toNat = false →
      exec i s = .next { s with result := some (.c2s .noop) })

/-- The seven extended messages (log entry 4): handed to the local arbitration software, nothing sent to the
Host. -/
def Obligations.ExtendedMessageStaysLocal : Prop :=
  ∀ (s : State) (i : Instr) (kind : ExtKind) (tag : BitVec 5) (arg : BitVec 24) (data : Bytes),
    (i = .detect1 arg data ∧ kind = .detect1 ∧ tag = 0x1F ∨
      i = .detect2 arg data ∧ kind = .detect2 ∧ tag = 0x1E ∨
      i = .detect3 arg data ∧ kind = .detect3 ∧ tag = 0x1D ∨
      i = .detect4 arg data ∧ kind = .detect4 ∧ tag = 0x1C ∨
      i = .ackId arg data ∧ kind = .ackId ∧ tag = 0x1B ∨
      i = .broadcast arg data ∧ kind = .broadcast ∧ tag = 0x00 ∨
      i = .firmware arg data ∧ kind = .firmware ∧ tag = 0x01) →
    exec i s = .next { s with result := some (.c2s (.handLocal ⟨kind, tag, arg⟩ data)) }

/-- A payload that carries a CAN message (log entry 4): sent on the bus when its id is a runtime id, whether
or not the panel has a row, else dropped and counted. -/
def Obligations.SercanSentOrDropped : Prop :=
  ∀ (s : State) (id : BitVec 11) (data : Bytes), Inv s → data.length ≤ 8 →
    (1 ≤ id.toNat / 2 ^ s.params.sidW.bits → id.toNat / 2 ^ s.params.sidW.bits ≤ 4 →
      exec (.sercan id data) s = .next
        { s with canTx := s.canTx ++ [⟨.std id, data⟩], result := some (.s2c (.sent s.txOk)) }) ∧
    (¬(1 ≤ id.toNat / 2 ^ s.params.sidW.bits ∧ id.toNat / 2 ^ s.params.sidW.bits ≤ 4) →
      exec (.sercan id data) s = .next
        { s with cntUnknown := counted s s.cntUnknown, result := some (.s2c .dropped) })

/-- The three host commands (log entry 4) are handed over and change nothing of the block: `RESET` is not
`RST`. -/
def Obligations.HostCommandsHandedOver : Prop :=
  ∀ (s : State) (args : Bytes),
    exec (.numPnls args) s = .next { s with result := some (.s2c (.hostCmd .numPnls args)) } ∧
    exec (.pnlInfo args) s = .next { s with result := some (.s2c (.hostCmd .pnlInfo args)) } ∧
    exec (.reset args) s = .next { s with result := some (.s2c (.hostCmd .reset args)) }

/-- A host command with a reserved sub-command (log entry 4) is dropped and counted. -/
def Obligations.ReservedHostCommandDropped : Prop :=
  ∀ (s : State) (sub : Byte) (args : Bytes), Inv s → sub ≠ 0x01 → sub ≠ 0x02 → sub ≠ 0xFF →
    exec (.serhost sub args) s = .next
      { s with cntUnknown := counted s s.cntUnknown, result := some (.s2c .dropped) }

/-- What arrives and cannot be classified (log entry 4) is dropped by the step and counted once: a standard id
outside the four opcodes, an extended id with a reserved tag, a payload with no id, a reserved id or too much
data. -/
def Obligations.UnclassifiedArrivalCounted : Prop :=
  ∀ (s : State) (pt : BitVec 64) (ok : Bool) (rest : List Request), Inv s →
    (∀ (id : BitVec 11) (data : Bytes), data.length ≤ 8 →
      s.pending = ⟨.canRx ⟨.std id, data⟩, pt, ok⟩ :: rest →
      ¬(1 ≤ id.toNat / 2 ^ s.params.sidW.bits ∧ id.toNat / 2 ^ s.params.sidW.bits ≤ 4) →
      step s = .next
        { s with
          pending := rest, ptPresent := pt, txOk := ok
          cntUnknown := counted s s.cntUnknown, result := some (.c2s .dropped) }) ∧
    (∀ (id : BitVec 29) (data : Bytes), data.length ≤ 8 →
      s.pending = ⟨.canRx ⟨.ext id, data⟩, pt, ok⟩ :: rest →
      0x02 ≤ id.toNat / 2 ^ 24 → id.toNat / 2 ^ 24 ≤ 0x1A →
      step s = .next
        { s with
          pending := rest, ptPresent := pt, txOk := ok
          cntUnknown := counted s s.cntUnknown, result := some (.c2s .dropped) }) ∧
    (∀ p : Bytes, s.pending = ⟨.payload p, pt, ok⟩ :: rest →
      (p.length < 2 ∨
        ∃ (hi lo : Byte) (tl : Bytes), p = hi :: lo :: tl ∧ hi ≠ 0xFF ∧
          (0x07FF < hi.toNat * 256 + lo.toNat ∨ 8 < tl.length)) →
      step s = .next
        { s with
          pending := rest, ptPresent := pt, txOk := ok
          cntUnknown := counted s s.cntUnknown, result := some (.s2c .dropped) })

/-- `cnt_unknown` moves only by `RST` and by a bridge that answers `DROPPED`. -/
def Obligations.OnlyDroppedCountsUnknown : Prop :=
  ∀ (s t : State) (i : Instr), exec i s = .next t → t.cntUnknown ≠ s.cntUnknown →
    i = .rst ∨ t.result = some (.s2c .dropped) ∨ t.result = some (.c2s .dropped)

/-- The transmit result is passed on and nothing else depends on it: the same state is left on either value,
but for the result returned. -/
def Obligations.TransmitResultOnlyPassedOn : Prop :=
  ∀ (s t f : State) (i : Instr),
    exec i { s with txOk := true } = .next t → exec i { s with txOk := false } = .next f →
    f = { t with txOk := false, result := f.result } ∧
    (t.result = some (.s2c (.sent true)) ∧ f.result = some (.s2c (.sent false)) ∨ t.result = f.result)
end

