-- ==== Sys2Proof/Laws/Cobs.lean ====
section
/-! SUPPORT. The stuffing and unstuffing loops of Ops.lean (written as 40_framer_encode.md R61 and
41_framer_decode.md R70 write them, over positions) as recursions over the list, which proofs by induction
use instead of the loops. -/

namespace Sys2Proof.Machine

/-- `stuff` from the right: the distance from the position before the list to the next zero (or to the end
of the block plus 1), and the stuffed bytes. -/
def stuffRec : Bytes → Nat × Bytes
  | [] => (1, [])
  | x :: xs =>
    if x = 0 then (1, BitVec.ofNat 8 (stuffRec xs).1 :: (stuffRec xs).2)
    else ((stuffRec xs).1 + 1, x :: (stuffRec xs).2)

/-- `unstuff` from the left: `k` is the distance from the position before the list to the next code byte. -/
def unstuffRec : Nat → Bytes → Option Bytes
  | k, [] => if k = 1 then some [] else none
  | k, x :: xs =>
    if k = 0 then none
    else if k = 1 then (unstuffRec x.toNat xs).map (fun r => (0 : Byte) :: r)
    else (unstuffRec (k - 1) xs).map (fun r => x :: r)

@[simp] theorem stuffRec_nil : stuffRec [] = (1, []) := rfl

theorem stuffRec_cons_zero (xs : Bytes) :
    stuffRec (0 :: xs) = (1, BitVec.ofNat 8 (stuffRec xs).1 :: (stuffRec xs).2) := by simp [stuffRec]

theorem stuffRec_cons_data {x : Byte} (hx : x ≠ 0) (xs : Bytes) :
    stuffRec (x :: xs) = ((stuffRec xs).1 + 1, x :: (stuffRec xs).2) := by rw [stuffRec, if_neg hx]

/-- The loop from a code position: `A` is finished, `x` is the code byte to be written, `mid` the data bytes
passed since it, `suf` what is still to visit. -/
theorem stuffLoop_eq_stuffRec (suf : Bytes) : ∀ (A mid : Bytes) (x : Byte) (m : Nat),
    m = A.length + mid.length + suf.length →
    stuffLoop m suf.length A.length (A ++ x :: (mid ++ suf)) =
      A ++ BitVec.ofNat 8 (mid.length + (stuffRec suf).1) :: (mid ++ (stuffRec suf).2) := by
  induction suf with
  | nil =>
    intro A mid x m hm
    have h : m + 1 - A.length = mid.length + 1 := by simp at hm; omega
    simp [stuffLoop, h]
  | cons y ys ih =>
    intro A mid x m hm
    have hj : m - ys.length = A.length + (mid.length + 1) := by simp at hm; omega
    have hget : (A ++ x :: (mid ++ y :: ys)).getD (A.length + (mid.length + 1)) 0 = y := by
      simp [List.getD_eq_getElem?_getD]
    by_cases hy : y = 0
    · subst hy
      have hset : (A ++ x :: (mid ++ (0 : Byte) :: ys)).set A.length
          (BitVec.ofNat 8 (A.length + (mid.length + 1) - A.length)) =
          (A ++ BitVec.ofNat 8 (mid.length + 1) :: mid) ++ (0 : Byte) :: ([] ++ ys) := by
        have : A.length + (mid.length + 1) - A.length = mid.length + 1 := by omega
        simp [this]
      have hlen : (A ++ BitVec.ofNat 8 (mid.length + 1) :: mid).length = A.length + (mid.length + 1) := by
        simp
      have hrec := ih (A ++ BitVec.ofNat 8 (mid.length + 1) :: mid) [] 0 m (by simp at hm ⊢; omega)
      rw [hlen] at hrec
      simp only [List.length_cons, stuffLoop, hj, hget, if_true, hset, hrec, stuffRec_cons_zero]
      simp
    · have hrec := ih A (mid ++ [y]) x m (by simp at hm ⊢; omega)
      have hk : mid.length + 1 + (stuffRec ys).1 = mid.length + ((stuffRec ys).1 + 1) := by omega
      simp only [List.length_cons, stuffLoop, hj, hget, hy, if_false, stuffRec_cons_data hy]
      simpa [hk] using hrec

/-- `stuff` as the recursion. -/
theorem stuff_eq_stuffRec (B : Bytes) :
    stuff B = BitVec.ofNat 8 (stuffRec B).1 :: (stuffRec B).2 := by
  simpa [stuff] using stuffLoop_eq_stuffRec B [] [] 0 B.length (by simp)

/-- A chain that stands on a zero code byte does not move on, and is malformed. -/
theorem unstuffLoop_zero_code (b : Bytes) (pos : Nat) (hpos : pos < b.length) (hz : b.getD pos 0 = 0) :
    ∀ (fuel : Nat) (out : Bytes), unstuffLoop b fuel pos out = none
  | 0, _ => rfl
  | fuel + 1, out => by
    have h0 : ((0 : Byte)).toNat = 0 := rfl
    have h1 : ¬pos + 0 > b.length := by omega
    have h2 : ¬pos + 0 = b.length := by omega
    simp only [unstuffLoop, hz, h0, if_neg h1, if_neg h2]
    exact unstuffLoop_zero_code b pos hpos hz fuel _

/-- One jump of the chain: past the end, exactly to the delimiter position, or to the next code byte. -/
theorem unstuffRec_jump (rest : Bytes) : ∀ k : Nat, 0 < k → unstuffRec k rest =
    if rest.length + 1 < k then none
    else if k = rest.length + 1 then some rest
    else (unstuffRec (rest.getD (k - 1) 0).toNat (rest.drop k)).map
      (fun r => rest.take (k - 1) ++ (0 : Byte) :: r) := by
  induction rest with
  | nil =>
    intro k hk
    by_cases h : k = 1
    · simp [unstuffRec, h]
    · have h2 : 1 < k := by omega
      simp [unstuffRec, h, h2]
  | cons x xs ih =>
    intro k hk
    by_cases h1 : k = 1
    · subst h1
      simp [unstuffRec]
    · have hk0 : k ≠ 0 := by omega
      obtain ⟨j, rfl⟩ : ∃ j, k = j + 2 := ⟨k - 2, by omega⟩
      have hrec := ih (j + 1) (by omega)
      have e1 : j + 2 - 1 = j + 1 := by omega
      simp only [unstuffRec, hk0, h1, if_false, e1, hrec, List.length_cons]
      by_cases c1 : xs.length + 1 < j + 1
      · have c1' : xs.length + 1 + 1 < j + 2 := by omega
        simp [c1, c1']
      · have c1' : ¬xs.length + 1 + 1 < j + 2 := by omega
        by_cases c2 : j + 1 = xs.length + 1
        · have c2' : j + 2 = xs.length + 1 + 1 := by omega
          simp [c2, c2']
        · have c2' : ¬j + 2 = xs.length + 1 + 1 := by omega
          simp only [c1, c1', c2, c2', if_false, Option.map_map]
          rfl

/-- The loop from the code position `A.length`, with the bytes before it written and enough rounds left. -/
theorem unstuffLoop_eq_unstuffRec (fuel : Nat) : ∀ (A pre rest : Bytes) (c : Byte),
    pre.length = A.length → rest.length < fuel →
    unstuffLoop (A ++ c :: rest) fuel A.length (pre ++ rest) =
      (unstuffRec c.toNat rest).map (fun r => pre ++ r) := by
  induction fuel with
  | zero => intro A pre rest c _ h; omega
  | succ fuel ih =>
    intro A pre rest c hpre hfuel
    have hget : (A ++ c :: rest).getD A.length 0 = c := by
      simp [List.getD_eq_getElem?_getD]
    by_cases hc : c = 0
    · subst hc
      rw [unstuffLoop_zero_code _ _ (by simp) hget]
      have h0 : unstuffRec ((0 : Byte)).toNat rest = none := by cases rest <;> rfl
      rw [h0]
      rfl
    · have hc0 : 0 < c.toNat := by
        rcases Nat.eq_zero_or_pos c.toNat with h | h
        · exact absurd (BitVec.eq_of_toNat_eq (by simpa using h)) hc
        · exact h
      have hn : (A ++ c :: rest).length = A.length + (rest.length + 1) := by simp
      simp only [unstuffLoop, hget, hn]
      rw [unstuffRec_jump rest c.toNat hc0]
      by_cases h1 : rest.length + 1 < c.toNat
      · have h1' : A.length + c.toNat > A.length + (rest.length + 1) := by omega
        simp [h1, h1']
      · have h1' : ¬A.length + c.toNat > A.length + (rest.length + 1) := by omega
        by_cases h2 : c.toNat = rest.length + 1
        · simp [h2]
        · have h2' : ¬A.length + c.toNat = A.length + (rest.length + 1) := by omega
          simp only [if_neg h1, if_neg h1', if_neg h2, if_neg h2']
          generalize hk : c.toNat = k at *
          obtain ⟨j, rfl⟩ : ∃ j, k = j + 1 := ⟨k - 1, by omega⟩
          have hj : j < rest.length := by omega
          have hsplit : rest = rest.take j ++ rest[j] :: rest.drop (j + 1) := by
            simp
          have hidx : A.length + (j + 1) - 1 = pre.length + j := by omega
          have hset : (pre ++ rest).set (pre.length + j) 0 =
              (pre ++ rest.take j ++ [(0 : Byte)]) ++ rest.drop (j + 1) := by
            rw [List.set_append_right _ _ (by omega)]
            have : pre.length + j - pre.length = j := by omega
            rw [this, List.set_eq_take_append_cons_drop, if_pos hj]
            simp
          have hA : A ++ c :: rest = (A ++ c :: rest.take j) ++ rest[j] :: rest.drop (j + 1) := by
            conv => lhs; rw [hsplit]
            simp
          have hAlen : (A ++ c :: rest.take j).length = A.length + (j + 1) := by
            simp; omega
          have hrec := ih (A ++ c :: rest.take j) (pre ++ rest.take j ++ [(0 : Byte)]) (rest.drop (j + 1))
            rest[j] (by simp; omega) (by simp; omega)
          rw [hAlen, ← hA] at hrec
          rw [hidx, hset, hrec]
          have hgetj : rest.getD (j + 1 - 1) 0 = rest[j] := by
            simp [List.getD_eq_getElem?_getD, hj]
          rw [hgetj]
          simp [Option.map_map, Function.comp_def]

/-- `unstuff` as the recursion, on an accumulation of at least one byte. -/
theorem unstuff_cons_eq_unstuffRec (c : Byte) (rest : Bytes) :
    unstuff (c :: rest) = unstuffRec c.toNat rest := by
  have h := unstuffLoop_eq_unstuffRec (rest.length + 1) [] [] rest c rfl (by omega)
  simpa [unstuff] using h

/-- The empty accumulation, which `check` is never asked about, has no chain. -/
@[simp] theorem unstuff_nil : unstuff [] = none := rfl

end Sys2Proof.Machine
end

