-- ==== Sys2Proof/Laws/State.lean ====
section
/-! SUPPORT. One lemma per field of State per update of it, so that no proof unfolds a record update; and
the counters seen through `State.count`. -/

namespace Sys2Proof.Machine

/-! ### `State.setRx` -/

@[simp] theorem State.setRx_params (s : State) (m : Memory) : (s.setRx m).params = s.params := rfl
@[simp] theorem State.setRx_rxBuf (s : State) (m : Memory) : (s.setRx m).rxBuf = m := rfl
@[simp] theorem State.setRx_cntOverflow (s : State) (m : Memory) : (s.setRx m).cntOverflow = s.cntOverflow := rfl
@[simp] theorem State.setRx_cntChecksum (s : State) (m : Memory) : (s.setRx m).cntChecksum = s.cntChecksum := rfl
@[simp] theorem State.setRx_cntShort (s : State) (m : Memory) : (s.setRx m).cntShort = s.cntShort := rfl
@[simp] theorem State.setRx_cntUnknown (s : State) (m : Memory) : (s.setRx m).cntUnknown = s.cntUnknown := rfl
@[simp] theorem State.setRx_ptPresent (s : State) (m : Memory) : (s.setRx m).ptPresent = s.ptPresent := rfl
@[simp] theorem State.setRx_txOk (s : State) (m : Memory) : (s.setRx m).txOk = s.txOk := rfl
@[simp] theorem State.setRx_serTx (s : State) (m : Memory) : (s.setRx m).serTx = s.serTx := rfl
@[simp] theorem State.setRx_canTx (s : State) (m : Memory) : (s.setRx m).canTx = s.canTx := rfl
@[simp] theorem State.setRx_result (s : State) (m : Memory) : (s.setRx m).result = s.result := rfl
@[simp] theorem State.setRx_pending (s : State) (m : Memory) : (s.setRx m).pending = s.pending := rfl
@[simp] theorem State.setRx_rxLen (s : State) (m : Memory) : (s.setRx m).rxLen = m.length := rfl
@[simp] theorem State.setRx_count (s : State) (m : Memory) (c : Counter) : (s.setRx m).count c = s.count c := by
  cases c <;> rfl

/-! ### `State.respond` -/

@[simp] theorem State.respond_params (s : State) (r : Result) : (s.respond r).params = s.params := rfl
@[simp] theorem State.respond_rxBuf (s : State) (r : Result) : (s.respond r).rxBuf = s.rxBuf := rfl
@[simp] theorem State.respond_cntOverflow (s : State) (r : Result) : (s.respond r).cntOverflow = s.cntOverflow := rfl
@[simp] theorem State.respond_cntChecksum (s : State) (r : Result) : (s.respond r).cntChecksum = s.cntChecksum := rfl
@[simp] theorem State.respond_cntShort (s : State) (r : Result) : (s.respond r).cntShort = s.cntShort := rfl
@[simp] theorem State.respond_cntUnknown (s : State) (r : Result) : (s.respond r).cntUnknown = s.cntUnknown := rfl
@[simp] theorem State.respond_ptPresent (s : State) (r : Result) : (s.respond r).ptPresent = s.ptPresent := rfl
@[simp] theorem State.respond_txOk (s : State) (r : Result) : (s.respond r).txOk = s.txOk := rfl
@[simp] theorem State.respond_serTx (s : State) (r : Result) : (s.respond r).serTx = s.serTx := rfl
@[simp] theorem State.respond_canTx (s : State) (r : Result) : (s.respond r).canTx = s.canTx := rfl
@[simp] theorem State.respond_result (s : State) (r : Result) : (s.respond r).result = some r := rfl
@[simp] theorem State.respond_pending (s : State) (r : Result) : (s.respond r).pending = s.pending := rfl
@[simp] theorem State.respond_rxLen (s : State) (r : Result) : (s.respond r).rxLen = s.rxLen := rfl
@[simp] theorem State.respond_count (s : State) (r : Result) (c : Counter) : (s.respond r).count c = s.count c := by
  cases c <;> rfl

/-! ### `State.respondNone` -/

@[simp] theorem State.respondNone_params (s : State) : s.respondNone.params = s.params := rfl
@[simp] theorem State.respondNone_rxBuf (s : State) : s.respondNone.rxBuf = s.rxBuf := rfl
@[simp] theorem State.respondNone_cntOverflow (s : State) : s.respondNone.cntOverflow = s.cntOverflow := rfl
@[simp] theorem State.respondNone_cntChecksum (s : State) : s.respondNone.cntChecksum = s.cntChecksum := rfl
@[simp] theorem State.respondNone_cntShort (s : State) : s.respondNone.cntShort = s.cntShort := rfl
@[simp] theorem State.respondNone_cntUnknown (s : State) : s.respondNone.cntUnknown = s.cntUnknown := rfl
@[simp] theorem State.respondNone_ptPresent (s : State) : s.respondNone.ptPresent = s.ptPresent := rfl
@[simp] theorem State.respondNone_txOk (s : State) : s.respondNone.txOk = s.txOk := rfl
@[simp] theorem State.respondNone_serTx (s : State) : s.respondNone.serTx = s.serTx := rfl
@[simp] theorem State.respondNone_canTx (s : State) : s.respondNone.canTx = s.canTx := rfl
@[simp] theorem State.respondNone_result (s : State) : s.respondNone.result = none := rfl
@[simp] theorem State.respondNone_pending (s : State) : s.respondNone.pending = s.pending := rfl
@[simp] theorem State.respondNone_rxLen (s : State) : s.respondNone.rxLen = s.rxLen := rfl
@[simp] theorem State.respondNone_count (s : State) (c : Counter) : s.respondNone.count c = s.count c := by
  cases c <;> rfl

/-! ### `State.emit` -/

@[simp] theorem State.emit_params (s : State) (f : Bytes) : (s.emit f).params = s.params := rfl
@[simp] theorem State.emit_rxBuf (s : State) (f : Bytes) : (s.emit f).rxBuf = s.rxBuf := rfl
@[simp] theorem State.emit_cntOverflow (s : State) (f : Bytes) : (s.emit f).cntOverflow = s.cntOverflow := rfl
@[simp] theorem State.emit_cntChecksum (s : State) (f : Bytes) : (s.emit f).cntChecksum = s.cntChecksum := rfl
@[simp] theorem State.emit_cntShort (s : State) (f : Bytes) : (s.emit f).cntShort = s.cntShort := rfl
@[simp] theorem State.emit_cntUnknown (s : State) (f : Bytes) : (s.emit f).cntUnknown = s.cntUnknown := rfl
@[simp] theorem State.emit_ptPresent (s : State) (f : Bytes) : (s.emit f).ptPresent = s.ptPresent := rfl
@[simp] theorem State.emit_txOk (s : State) (f : Bytes) : (s.emit f).txOk = s.txOk := rfl
@[simp] theorem State.emit_serTx (s : State) (f : Bytes) : (s.emit f).serTx = s.serTx ++ f := rfl
@[simp] theorem State.emit_canTx (s : State) (f : Bytes) : (s.emit f).canTx = s.canTx := rfl
@[simp] theorem State.emit_result (s : State) (f : Bytes) : (s.emit f).result = s.result := rfl
@[simp] theorem State.emit_pending (s : State) (f : Bytes) : (s.emit f).pending = s.pending := rfl
@[simp] theorem State.emit_rxLen (s : State) (f : Bytes) : (s.emit f).rxLen = s.rxLen := rfl
@[simp] theorem State.emit_count (s : State) (f : Bytes) (c : Counter) : (s.emit f).count c = s.count c := by
  cases c <;> rfl

/-! ### `State.transmit` -/

@[simp] theorem State.transmit_params (s : State) (m : CanMsg) : (s.transmit m).params = s.params := rfl
@[simp] theorem State.transmit_rxBuf (s : State) (m : CanMsg) : (s.transmit m).rxBuf = s.rxBuf := rfl
@[simp] theorem State.transmit_cntOverflow (s : State) (m : CanMsg) : (s.transmit m).cntOverflow = s.cntOverflow := rfl
@[simp] theorem State.transmit_cntChecksum (s : State) (m : CanMsg) : (s.transmit m).cntChecksum = s.cntChecksum := rfl
@[simp] theorem State.transmit_cntShort (s : State) (m : CanMsg) : (s.transmit m).cntShort = s.cntShort := rfl
@[simp] theorem State.transmit_cntUnknown (s : State) (m : CanMsg) : (s.transmit m).cntUnknown = s.cntUnknown := rfl
@[simp] theorem State.transmit_ptPresent (s : State) (m : CanMsg) : (s.transmit m).ptPresent = s.ptPresent := rfl
@[simp] theorem State.transmit_txOk (s : State) (m : CanMsg) : (s.transmit m).txOk = s.txOk := rfl
@[simp] theorem State.transmit_serTx (s : State) (m : CanMsg) : (s.transmit m).serTx = s.serTx := rfl
@[simp] theorem State.transmit_canTx (s : State) (m : CanMsg) : (s.transmit m).canTx = s.canTx ++ [m] := rfl
@[simp] theorem State.transmit_result (s : State) (m : CanMsg) : (s.transmit m).result = s.result := rfl
@[simp] theorem State.transmit_pending (s : State) (m : CanMsg) : (s.transmit m).pending = s.pending := rfl
@[simp] theorem State.transmit_rxLen (s : State) (m : CanMsg) : (s.transmit m).rxLen = s.rxLen := rfl
@[simp] theorem State.transmit_count (s : State) (m : CanMsg) (c : Counter) : (s.transmit m).count c = s.count c := by
  cases c <;> rfl

/-! ### `State.take` -/

@[simp] theorem State.take_params (s : State) (r : Request) (rest : List Request) : (s.take r rest).params = s.params := rfl
@[simp] theorem State.take_rxBuf (s : State) (r : Request) (rest : List Request) : (s.take r rest).rxBuf = s.rxBuf := rfl
@[simp] theorem State.take_cntOverflow (s : State) (r : Request) (rest : List Request) : (s.take r rest).cntOverflow = s.cntOverflow := rfl
@[simp] theorem State.take_cntChecksum (s : State) (r : Request) (rest : List Request) : (s.take r rest).cntChecksum = s.cntChecksum := rfl
@[simp] theorem State.take_cntShort (s : State) (r : Request) (rest : List Request) : (s.take r rest).cntShort = s.cntShort := rfl
@[simp] theorem State.take_cntUnknown (s : State) (r : Request) (rest : List Request) : (s.take r rest).cntUnknown = s.cntUnknown := rfl
@[simp] theorem State.take_ptPresent (s : State) (r : Request) (rest : List Request) : (s.take r rest).ptPresent = r.ptPresent := rfl
@[simp] theorem State.take_txOk (s : State) (r : Request) (rest : List Request) : (s.take r rest).txOk = r.txOk := rfl
@[simp] theorem State.take_serTx (s : State) (r : Request) (rest : List Request) : (s.take r rest).serTx = s.serTx := rfl
@[simp] theorem State.take_canTx (s : State) (r : Request) (rest : List Request) : (s.take r rest).canTx = s.canTx := rfl
@[simp] theorem State.take_result (s : State) (r : Request) (rest : List Request) : (s.take r rest).result = s.result := rfl
@[simp] theorem State.take_pending (s : State) (r : Request) (rest : List Request) : (s.take r rest).pending = rest := rfl
@[simp] theorem State.take_rxLen (s : State) (r : Request) (rest : List Request) : (s.take r rest).rxLen = s.rxLen := rfl
@[simp] theorem State.take_count (s : State) (r : Request) (rest : List Request) (c : Counter) : (s.take r rest).count c = s.count c := by
  cases c <;> rfl

/-! ### `State.bump` -/

@[simp] theorem State.bump_params (s : State) (c : Counter) : (s.bump c).params = s.params := by cases c <;> rfl
@[simp] theorem State.bump_rxBuf (s : State) (c : Counter) : (s.bump c).rxBuf = s.rxBuf := by cases c <;> rfl
@[simp] theorem State.bump_ptPresent (s : State) (c : Counter) : (s.bump c).ptPresent = s.ptPresent := by cases c <;> rfl
@[simp] theorem State.bump_txOk (s : State) (c : Counter) : (s.bump c).txOk = s.txOk := by cases c <;> rfl
@[simp] theorem State.bump_serTx (s : State) (c : Counter) : (s.bump c).serTx = s.serTx := by cases c <;> rfl
@[simp] theorem State.bump_canTx (s : State) (c : Counter) : (s.bump c).canTx = s.canTx := by cases c <;> rfl
@[simp] theorem State.bump_result (s : State) (c : Counter) : (s.bump c).result = s.result := by cases c <;> rfl
@[simp] theorem State.bump_pending (s : State) (c : Counter) : (s.bump c).pending = s.pending := by cases c <;> rfl
@[simp] theorem State.bump_rxLen (s : State) (c : Counter) : (s.bump c).rxLen = s.rxLen := by cases c <;> rfl

/-- An increment changes its own counter and no other. -/
@[simp] theorem State.bump_count (s : State) (c d : Counter) :
    (s.bump c).count d = if c = d then satInc s.params.cntW (s.count d) else s.count d := by
  cases c <;> cases d <;> rfl

/-! ### The same update twice, and equality of states -/

@[simp] theorem State.respond_respond (s : State) (r r' : Result) : (s.respond r).respond r' = s.respond r' := rfl
@[simp] theorem State.setRx_setRx (s : State) (m m' : Memory) : (s.setRx m).setRx m' = s.setRx m' := rfl

/-- Two states are equal when their fields are, the counters read through `State.count`. -/
theorem State.ext_count {s t : State} (hp : s.params = t.params) (hr : s.rxBuf = t.rxBuf)
    (hc : ∀ c, s.count c = t.count c) (hpt : s.ptPresent = t.ptPresent) (hok : s.txOk = t.txOk)
    (htx : s.serTx = t.serTx) (hcan : s.canTx = t.canTx) (hres : s.result = t.result)
    (hpend : s.pending = t.pending) : s = t := by
  have h1 := hc .overflow
  have h2 := hc .checksum
  have h3 := hc .short
  have h4 := hc .unknown
  cases s
  cases t
  simp_all [State.count]

end Sys2Proof.Machine
end

