-- ==== Sys2Proof/Laws/Ops.lean ====
section
/-! SUPPORT. One lemma per shared operation that says everything it can do, and the facts about sums,
counters, the canonical form of the buffer and the parts of an id that proofs need again and again. -/

namespace Sys2Proof.Machine

/-! ### Sums -/

@[simp] theorem sumBytes_nil : sumBytes [] = 0 := rfl

@[simp] theorem sumBytes_cons (x : Byte) (xs : Bytes) : sumBytes (x :: xs) = x.toNat + sumBytes xs := by
  simp [sumBytes]

@[simp] theorem sumBytes_append (xs ys : Bytes) : sumBytes (xs ++ ys) = sumBytes xs + sumBytes ys := by
  simp [sumBytes]

/-- The checksum as a number (R60). -/
theorem cks_toNat (p : Bytes) : (cks p).toNat = (256 - sumBytes p % 256) % 256 := by
  simp only [cks, BitVec.toNat_ofNat]
  omega

/-! ### Counters -/

theorem satInc_ge (w v : Nat) : v ≤ satInc w v := by unfold satInc; split <;> omega

theorem satInc_lt {w v : Nat} (h : v < 2 ^ w) : satInc w v < 2 ^ w := by unfold satInc; split <;> omega

/-- On a counter value that fits, `sat_inc` is the rule's own wording (R73). -/
theorem satInc_eq {w v : Nat} (h : v < 2 ^ w) : satInc w v = if v = 2 ^ w - 1 then v else v + 1 := by
  unfold satInc
  by_cases e : v = 2 ^ w - 1
  · simp [e]
  · have : v < 2 ^ w - 1 := by omega
    simp [e, this]

/-! ### The buffer -/

/-- The canonical form as a proposition (R24). -/
theorem Memory.wf_iff (m : Memory) : m.wf = true ↔ m.length ≤ Config.rxCap ∧ ∀ b ∈ m, b ≠ 0 := by
  simp [Memory.wf]

@[simp] theorem Memory.wf_nil : Memory.wf [] = true := by decide

/-- A data byte stored with room keeps the canonical form. -/
theorem Memory.wf_store {m : Memory} {b : Byte} (h : m.wf = true) (hlen : m.length < Config.rxCap)
    (hb : b ≠ 0) : (m.store b).wf = true := by
  rw [Memory.wf_iff] at h ⊢
  simp only [Memory.store, List.length_append, List.length_singleton, List.mem_append, List.mem_singleton]
  exact ⟨by omega, fun x hx => hx.elim (h.2 x) (fun e => e ▸ hb)⟩

theorem State.reset_rxBuf_wf : State.reset.rxBuf.wf = true := by decide

/-- Storing writes the cell at `rx_len` (R72) … -/
theorem Memory.read_store_self (m : Memory) (b : Byte) : (m.store b).read m.length = some b := by
  simp [Memory.read, Memory.store]

/-- … and leaves every cell before it as it was. -/
theorem Memory.read_store_of_lt {m : Memory} {i : Nat} (b : Byte) (h : i < m.length) :
    (m.store b).read i = m.read i := List.getElem?_append_left h

/-- The accumulation is the whole buffer: `MemRead(0, rx_len)` (R74). -/
theorem Memory.readRange_all (m : Memory) : m.readRange 0 m.length = some m := by
  simp [Memory.readRange]

/-! ### The frame check -/

/-- What the verdict of R71 says, in its four cases. -/
theorem check_cases (minBlock : Nat) (b : Bytes) :
    (unstuff b = none ∧ check minBlock b = .bad .checksumChain) ∨
    (∃ B, unstuff b = some B ∧ sumBytes B % 256 ≠ 0 ∧ check minBlock b = .bad .checksumSum) ∨
    (∃ B, unstuff b = some B ∧ sumBytes B % 256 = 0 ∧ B.length < minBlock ∧
      check minBlock b = .bad .short) ∨
    (∃ B, unstuff b = some B ∧ sumBytes B % 256 = 0 ∧ minBlock ≤ B.length ∧
      check minBlock b = .good B.dropLast) := by
  cases h : unstuff b with
  | none => exact .inl ⟨rfl, by simp [check, h]⟩
  | some B =>
    refine .inr ?_
    by_cases h1 : sumBytes B % 256 = 0
    · by_cases h2 : B.length < minBlock
      · exact .inr (.inl ⟨B, rfl, h1, h2, by simp [check, h, h1, h2]⟩)
      · exact .inr (.inr ⟨B, rfl, h1, by omega, by simp [check, h, h1, h2]⟩)
    · exact .inl ⟨B, rfl, h1, by simp [check, h, h1]⟩

/-! ### Drops and `DEC.PUSH` -/

@[simp] theorem takeDrop_params (c : DropCause) (s : State) : (takeDrop c s).params = s.params := by
  simp [takeDrop]

@[simp] theorem takeDrop_rxBuf (c : DropCause) (s : State) : (takeDrop c s).rxBuf = [] := by
  simp [takeDrop]

@[simp] theorem takeDrop_rxLen (c : DropCause) (s : State) : (takeDrop c s).rxLen = 0 := by
  simp [takeDrop]

@[simp] theorem takeDrop_result (c : DropCause) (s : State) :
    (takeDrop c s).result = some (.dec (.drop c)) := by simp [takeDrop]

@[simp] theorem takeDrop_count (c : DropCause) (s : State) (d : Counter) : (takeDrop c s).count d =
    if c.counter = d then satInc s.params.cntW (s.count d) else s.count d := by simp [takeDrop]

@[simp] theorem takeDrop_ports (c : DropCause) (s : State) :
    (takeDrop c s).ptPresent = s.ptPresent ∧ (takeDrop c s).txOk = s.txOk ∧
    (takeDrop c s).serTx = s.serTx ∧ (takeDrop c s).canTx = s.canTx ∧
    (takeDrop c s).pending = s.pending := by simp [takeDrop]

/-- Everything a data byte can do (R72, R73). -/
theorem pushData_cases (b : Byte) (s : State) :
    (s.rxLen < Config.rxCap ∧
      pushData b s = (s.setRx (s.rxBuf.store b)).respond (.dec .none)) ∨
    (Config.rxCap ≤ s.rxLen ∧ pushData b s = takeDrop .overflow s) := by
  by_cases h : s.rxLen < Config.rxCap
  · exact .inl ⟨h, by simp [pushData, h]⟩
  · exact .inr ⟨by omega, by simp [pushData, h]⟩

/-- Everything a delimiter can do (R74, R75). -/
theorem pushDelimiter_cases (s : State) :
    (s.rxLen = 0 ∧ pushDelimiter s = (s.setRx []).respond (.dec .idle)) ∨
    (∃ c, s.rxLen ≠ 0 ∧ check s.params.minBlock s.rxBuf = .bad c ∧ pushDelimiter s = takeDrop c s) ∨
    (∃ p, s.rxLen ≠ 0 ∧ check s.params.minBlock s.rxBuf = .good p ∧
      pushDelimiter s = (s.setRx []).respond (.dec (.deliver p))) := by
  by_cases h : s.rxLen = 0
  · exact .inl ⟨h, by simp [pushDelimiter, h]⟩
  · cases hc : check s.params.minBlock s.rxBuf with
    | bad c => exact .inr (.inl ⟨c, h, rfl, by simp [pushDelimiter, h, hc]⟩)
    | good p => exact .inr (.inr ⟨p, h, rfl, by simp [pushDelimiter, h, hc]⟩)

/-! ### Bridging -/

@[simp] theorem dropUnknown_count (r : Result) (s : State) (d : Counter) : (dropUnknown r s).count d =
    if Counter.unknown = d then satInc s.params.cntW (s.count d) else s.count d := by simp [dropUnknown]

@[simp] theorem dropUnknown_result (r : Result) (s : State) : (dropUnknown r s).result = some r := by
  simp [dropUnknown]

@[simp] theorem dropUnknown_others (r : Result) (s : State) :
    (dropUnknown r s).params = s.params ∧ (dropUnknown r s).rxBuf = s.rxBuf ∧
    (dropUnknown r s).ptPresent = s.ptPresent ∧ (dropUnknown r s).txOk = s.txOk ∧
    (dropUnknown r s).serTx = s.serTx ∧ (dropUnknown r s).canTx = s.canTx ∧
    (dropUnknown r s).pending = s.pending := by simp [dropUnknown]

/-- Everything `BRIDGE.S2C` can do (R106). -/
theorem bridgeS2C_cases (p : Bytes) (s : State) :
    (∃ id data, serSplit p = .can id data ∧ (stdUnpack s.params.sidW id).cls = .runtime ∧
      bridgeS2C p s = (s.transmit ⟨.std id, data⟩).respond (.s2c (.sent s.txOk))) ∨
    (∃ sub args, serSplit p = .host sub args ∧ hostClassify sub ≠ .hostUnknown ∧
      bridgeS2C p s = s.respond (.s2c (.hostCmd (hostClassify sub) args))) ∨
    bridgeS2C p s = dropUnknown (.s2c .dropped) s := by
  cases h : serSplit p with
  | can id data =>
    cases hc : (stdUnpack s.params.sidW id).cls with
    | runtime => exact .inl ⟨id, data, rfl, hc, by simp [bridgeS2C, h, hc]⟩
    | unknown => exact .inr (.inr (by simp [bridgeS2C, h, hc]))
  | host sub args =>
    by_cases hc : hostClassify sub = .hostUnknown
    · exact .inr (.inr (by simp [bridgeS2C, h, hc]))
    · exact .inr (.inl ⟨sub, args, rfl, hc, by simp [bridgeS2C, h, hc]⟩)
  | unknown why => exact .inr (.inr (by simp [bridgeS2C, h]))

/-- Everything forwarding can do: at most a frame on `ser_tx`, and the result. -/
theorem forwardToHost_cases (id : BitVec Config.stdW) (data : Bytes) (r : RouteRes) (s : State) :
    ∃ f, forwardToHost id data r s = (s.emit f).respond (.c2s (.forwarded r)) ∧
      (f = [] ∨ f = frameOf (serCanPayload id data)) := by
  unfold forwardToHost encodeFrame
  split
  · rename_i f h
    split at h
    · cases h
    · cases h
      exact ⟨_, rfl, .inr rfl⟩
  · exact ⟨[], by simp [State.emit], .inl rfl⟩

/-- A `SERCAN` payload of a CAN message is never too long for the encoder (R97, R107). -/
theorem forwardToHost_frame {id : BitVec Config.stdW} {data : Bytes} (h : data.length ≤ 8) (r : RouteRes)
    (s : State) : forwardToHost id data r s =
      (s.emit (frameOf (serCanPayload id data))).respond (.c2s (.forwarded r)) := by
  have hlen : ¬(serCanPayload id data).length > Config.maxPayload := by
    simp [serCanPayload, idBytes, Config.maxPayload]; omega
  simp [forwardToHost, encodeFrame, hlen]

/-- Everything `BRIDGE.C2S` can do (R107). -/
theorem bridgeC2S_cases (m : CanMsg) (s : State) :
    (∃ id, m.id = .ext id ∧ (extUnpack id).kind ≠ .unknown ∧
      bridgeC2S m s = s.respond (.c2s (.handLocal (extUnpack id) m.data))) ∨
    (∃ id, m.id = .std id ∧ rtRoute s.ptLookup (stdUnpack s.params.sidW id) m.data = .noop ∧
      bridgeC2S m s = s.respond (.c2s .noop)) ∨
    (∃ id r, m.id = .std id ∧ rtRoute s.ptLookup (stdUnpack s.params.sidW id) m.data = r ∧ r ≠ .noop ∧
      bridgeC2S m s = forwardToHost id m.data r s) ∨
    bridgeC2S m s = dropUnknown (.c2s .dropped) s := by
  cases h : m.id with
  | ext id =>
    by_cases hk : (extUnpack id).kind = .unknown
    · exact .inr (.inr (.inr (by simp [bridgeC2S, h, hk])))
    · exact .inl ⟨id, rfl, hk, by simp [bridgeC2S, h, hk]⟩
  | std id =>
    by_cases hk : (stdUnpack s.params.sidW id).cls = .unknown
    · exact .inr (.inr (.inr (by simp [bridgeC2S, h, hk])))
    · cases hr : rtRoute s.ptLookup (stdUnpack s.params.sidW id) m.data with
      | noop => exact .inr (.inl ⟨id, rfl, hr, by simp [bridgeC2S, h, hk, hr]⟩)
      | event sid opc data =>
        exact .inr (.inr (.inl ⟨id, _, rfl, hr, by simp, by simp [bridgeC2S, h, hk, hr]⟩))

/-! ### Requests and steps -/

/-- Everything a rejected request can do. -/
theorem takeRejected_cases (e : Reject) (s : State) :
    (e = .illFormed ∧ takeRejected e s = .fault .notATransaction) ∨
    (∃ sel, e = .opReserved sel ∧ takeRejected e s = .next (s.respond (.refuse .opReserved))) ∨
    takeRejected e s = .next (dropUnknown (.c2s .dropped) s) ∨
    takeRejected e s = .next (dropUnknown (.s2c .dropped) s) := by
  cases e <;> simp [takeRejected]

/-- What a decoded instruction is: the raw reading, and it passed the check. -/
theorem decode_eq_ok_iff (pr : Params) (t : Transaction) (i : Instr) :
    decode pr t = .ok i ↔ decodeRaw pr t = .ok i ∧ i.wellFormed pr = true := by
  unfold decode
  split
  · rename_i e h
    simp [h]
  · rename_i j h
    split
    · rename_i hw
      constructor
      · intro e; cases e; exact ⟨h, hw⟩
      · rintro ⟨e, -⟩; rw [h] at e; exact e
    · rename_i hw
      constructor
      · intro e; cases e
      · rintro ⟨e, hi⟩; rw [h] at e; cases e; exact absurd hi hw

/-- Everything a step can do. -/
theorem step_cases (s : State) :
    (s.pending = [] ∧ step s = .next s.respondNone) ∨
    (∃ r rest i, s.pending = r :: rest ∧ decode s.params r.txn = .ok i ∧
      step s = exec i (s.take r rest)) ∨
    (∃ r rest e, s.pending = r :: rest ∧ decode s.params r.txn = .error e ∧
      step s = takeRejected e (s.take r rest)) := by
  cases hp : s.pending with
  | nil => exact .inl ⟨rfl, by simp [step, hp]⟩
  | cons r rest =>
    cases hd : decode s.params r.txn with
    | ok i => exact .inr (.inl ⟨r, rest, i, rfl, hd, by simp [step, hp, hd]⟩)
    | error e => exact .inr (.inr ⟨r, rest, e, rfl, hd, by simp [step, hp, hd]⟩)

end Sys2Proof.Machine
end

