-- ==== Sys2Proof/Laws/Exec.lean ====
section
/-! SUPPORT. What a meaning can do, once for all thirty: the inversion of `exec`, from which facts about every
next state follow without unfolding a meaning again. -/

namespace Sys2Proof.Machine

/-- A result alone is the emission of no bytes and that result. -/
theorem State.respond_eq_emit_nil (s : State) (r : Result) : s.respond r = (s.emit []).respond r := by
  simp [State.emit]

/-- Bridging to the CAN bus returns a result, sends one message, or drops. -/
theorem bridgeS2C_shape (p : Bytes) (s : State) :
    (∃ r, bridgeS2C p s = s.respond r) ∨ (∃ m r, bridgeS2C p s = (s.transmit m).respond r) ∨
    bridgeS2C p s = dropUnknown (.s2c .dropped) s := by
  rcases bridgeS2C_cases p s with ⟨_, _, _, _, e⟩ | ⟨_, _, _, _, e⟩ | e
  · exact .inr (.inl ⟨_, _, e⟩)
  · exact .inl ⟨_, e⟩
  · exact .inr (.inr e)

/-- Bridging to the serial link emits bytes (perhaps none) and returns a result, or drops. -/
theorem bridgeC2S_shape (m : CanMsg) (s : State) :
    (∃ f r, bridgeC2S m s = (s.emit f).respond r) ∨
    bridgeC2S m s = dropUnknown (.c2s .dropped) s := by
  rcases bridgeC2S_cases m s with ⟨_, _, _, e⟩ | ⟨_, _, _, e⟩ | ⟨id, r, _, _, _, e⟩ | e
  · exact .inl ⟨[], _, e.trans (s.respond_eq_emit_nil _)⟩
  · exact .inl ⟨[], _, e.trans (s.respond_eq_emit_nil _)⟩
  · obtain ⟨f, e', -⟩ := forwardToHost_cases id m.data r s
    exact .inl ⟨f, _, e.trans e'⟩
  · exact .inr e

/-- Everything `exec` can do when it answers a next state: `RST`'s writes; bytes emitted and a result; one
message sent and a result; a data byte pushed; a delimiter pushed; an unknown message dropped. -/
theorem exec_cases (i : Instr) (s t : State) (h : exec i s = .next t) :
    (i = .rst ∧ t = { s with
      rxBuf := [], cntOverflow := 0, cntChecksum := 0, cntShort := 0, cntUnknown := 0, result := none }) ∨
    (∃ f r, t = (s.emit f).respond r) ∨ (∃ m r, t = (s.transmit m).respond r) ∨
    (∃ b, b ≠ 0 ∧ t = pushData b s) ∨ t = pushDelimiter s ∨
    t = dropUnknown (.s2c .dropped) s ∨ t = dropUnknown (.c2s .dropped) s := by
  cases i
  case rst => cases h; exact .inl ⟨rfl, rfl⟩
  case encFrame p =>
    simp only [exec, execEncFrame] at h
    split at h <;> cases h
    · exact .inr (.inl ⟨_, _, rfl⟩)
    · exact .inr (.inl ⟨[], _, s.respond_eq_emit_nil _⟩)
  case decPush b =>
    simp only [exec, execDecPush] at h
    split at h <;> cases h
    · simp
    · exact .inr (.inr (.inr (.inl ⟨b, by assumption, rfl⟩)))
  case delim => cases h; simp
  case stdPack | extPack | serJoin | hostBuild =>
    cases h
    refine .inr (.inl ?_)
    simp only [State.respondExcept]
    split <;> exact ⟨[], _, s.respond_eq_emit_nil _⟩
  case cntRead | stdUnpack | extUnpack | serSplit | hostClassify | rtRoute =>
    cases h
    exact .inr (.inl ⟨[], _, s.respond_eq_emit_nil _⟩)
  case sercan | serhost | numPnls | pnlInfo | reset =>
    cases h
    rcases bridgeS2C_shape _ s with ⟨r, e⟩ | h | h
    · exact .inr (.inl ⟨[], r, e.trans (s.respond_eq_emit_nil r)⟩)
    · exact .inr (.inr (.inl h))
    · exact .inr (.inr (.inr (.inr (.inr (.inl h)))))
  all_goals
    cases h
    rcases bridgeC2S_shape _ s with h | h
    · exact .inr (.inl h)
    · exact .inr (.inr (.inr (.inr (.inr (.inr h)))))

end Sys2Proof.Machine
end

