-- ==== Sys2Proof/Laws/Ids.lean ====
section
/-! SUPPORT. Bit fields as division and remainder, and the ids that the packing functions build as sums
(30_encoding.md R49, 42_can_id_translator.md R111): what proofs about the translator compute with. -/

namespace Sys2Proof.Machine

/-! ### The widths of 00_scope.md R7 as bounds, in the numbers that `omega` reads -/

theorem opc_lt (opc : BitVec Config.opcW) : opc.toNat < 16 := opc.isLt

theorem stdId_lt (id : BitVec Config.stdW) : id.toNat < 2048 := id.isLt

theorem extId_lt (id : BitVec Config.extW) : id.toNat < 2 ^ 29 := id.isLt

theorem tag_lt (tag : BitVec Config.tagW) : tag.toNat < 32 := tag.isLt

theorem arg_lt (arg : BitVec Config.argW) : arg.toNat < 2 ^ 24 := arg.isLt

/-! ### Fields and ids -/

/-- A bit slice is a quotient and a remainder. -/
theorem slice_eq (v hi lo : Nat) : slice v hi lo = v / 2 ^ lo % 2 ^ (hi + 1 - lo) := by
  simp [slice, Nat.shiftRight_eq_div_pow]

/-- A field above another, joined by shift and or, is a sum. -/
theorem shift_or_eq (a b k : Nat) (h : b < 2 ^ k) : (a <<< k) ||| b = a * 2 ^ k + b := by
  rw [← Nat.shiftLeft_add_eq_or_of_lt h, Nat.shiftLeft_eq]

/-- The standard id of an opcode and a short id that fits (R91). -/
theorem stdIdOf_toNat (w : SidW) (opc : BitVec Config.opcW) (sid : Nat) (h : sid < 2 ^ w.bits) :
    (stdIdOf w opc sid).toNat = opc.toNat * 2 ^ w.bits + sid := by
  have ho := opc_lt opc
  rw [stdIdOf, BitVec.toNat_ofNat, shift_or_eq _ _ _ h]
  cases w <;> simp [SidW.bits] at h ⊢ <;> omega

/-- The extended id of a tag and an argument (R94). -/
theorem extIdOf_toNat (tag : BitVec Config.tagW) (arg : BitVec Config.argW) :
    (extIdOf tag arg).toNat = tag.toNat * 2 ^ 24 + arg.toNat := by
  have ht := tag_lt tag
  have ha := arg_lt arg
  rw [extIdOf, BitVec.toNat_ofNat, shift_or_eq _ _ _ ha]
  simp only [Config.argW, Config.extW]
  omega

/-- The serial id of two bytes (R27). -/
theorem id16_eq (hi lo : Byte) : id16 hi lo = hi.toNat * 256 + lo.toNat := by
  rw [id16, shift_or_eq _ _ _ lo.isLt]
  norm_num

/-- The four runtime opcodes as numbers (R50). -/
theorem isRuntimeOpc_iff (opc : BitVec Config.opcW) :
    isRuntimeOpc opc = true ↔ 1 ≤ opc.toNat ∧ opc.toNat ≤ 4 := by
  revert opc
  decide

/-- The class of a standard id by its fields (R92). -/
theorem stdClassOf_eq_runtime_iff (opc : BitVec Config.opcW) (rsv : BitVec 2) :
    stdClassOf opc rsv = .runtime ↔ rsv = 0 ∧ 1 ≤ opc.toNat ∧ opc.toNat ≤ 4 := by
  revert opc rsv
  decide

/-- The reserved tags are 0x02 to 0x1A (R54). -/
theorem tagKind_eq_unknown_iff (tag : BitVec Config.tagW) :
    tagKind tag = .unknown ↔ 0x02 ≤ tag.toNat ∧ tag.toNat ≤ 0x1A := by
  revert tag
  decide

/-- The class that `STD.UNPACK` gives is that of the fields it gives (R92). -/
theorem stdUnpack_runtime_iff (w : SidW) (id : BitVec Config.stdW) : (stdUnpack w id).cls = .runtime ↔
    (stdUnpack w id).rsv = 0 ∧ 1 ≤ (stdUnpack w id).opc.toNat ∧ (stdUnpack w id).opc.toNat ≤ 4 :=
  stdClassOf_eq_runtime_iff (stdUnpack w id).opc (stdUnpack w id).rsv

/-- The two id bytes as quotient and remainder (R44). -/
theorem idBytes_eq (id : BitVec Config.stdW) :
    idBytes id = [BitVec.ofNat 8 (id.toNat / 256), BitVec.ofNat 8 (id.toNat % 256)] := by
  have h := stdId_lt id
  simp only [idBytes, slice_eq, List.cons.injEq, and_true]
  constructor
  · apply BitVec.eq_of_toNat_eq
    simp
    omega
  · apply BitVec.eq_of_toNat_eq
    simp

/-- The sub-commands that `HOST.CLASSIFY` does not know (R101). -/
theorem hostClassify_eq_unknown_iff (sub : Byte) :
    hostClassify sub = .hostUnknown ↔ sub ≠ 0x01 ∧ sub ≠ 0x02 ∧ sub ≠ 0xFF := by
  unfold hostClassify
  split_ifs
  all_goals simp_all

/-- The bound on CAN data as a proposition (R20). -/
theorem canDataOk_iff (data : Bytes) : canDataOk data = true ↔ data.length ≤ 8 := by
  unfold canDataOk
  exact decide_eq_true_iff

/-- The bound on a short id as a proposition (R46). -/
theorem sidFits_iff (w : SidW) (sid : BitVec 6) : sidFits w sid = true ↔ sid.toNat < 2 ^ w.bits := by
  unfold sidFits
  exact decide_eq_true_iff

end Sys2Proof.Machine
end

