-- ==== Sys2Proof/Laws/PerInstr.lean ====
section
/-! SUPPORT. One lemma per constructor of `Instr`, the family `EncodeMatchesRow`: what the encoder writes for a
well-formed instruction stands on the port of its row of spec/opcode_table.json and carries the row's fixed
bits. The table is written for `SID_W` = 5 (30_encoding.md R58). -/

namespace Sys2Proof.Laws.EncodeMatchesRow

open Sys2Proof.Machine Config

/-- The port on which a row of the table stands, by the row's format. -/
inductive Port where
  | opSel
  | stream
  | std11
  | ext29
  | payload
deriving DecidableEq, Repr

/-- A row: its port, and the fixed bits `hi` to `lo` with their value. -/
structure Row where
  port : Port
  hi : Nat
  lo : Nat
  value : Nat
deriving DecidableEq, Repr

/-- The fixed bits of each row of the table. -/
def row : Instr → Row
  | .rst => ⟨.opSel, 3, 0, 0x0⟩
  | .encFrame _ => ⟨.opSel, 3, 0, 0x1⟩
  | .decPush _ => ⟨.opSel, 3, 0, 0x2⟩
  | .cntRead _ => ⟨.opSel, 3, 0, 0x3⟩
  | .stdPack _ _ => ⟨.opSel, 3, 0, 0x4⟩
  | .stdUnpack _ => ⟨.opSel, 3, 0, 0x5⟩
  | .extPack _ _ => ⟨.opSel, 3, 0, 0x6⟩
  | .extUnpack _ => ⟨.opSel, 3, 0, 0x7⟩
  | .serJoin _ => ⟨.opSel, 3, 0, 0x8⟩
  | .serSplit _ => ⟨.opSel, 3, 0, 0x9⟩
  | .hostBuild _ _ => ⟨.opSel, 3, 0, 0xA⟩
  | .hostClassify _ => ⟨.opSel, 3, 0, 0xB⟩
  | .rtRoute _ _ => ⟨.opSel, 3, 0, 0xC⟩
  | .delim => ⟨.stream, 7, 0, 0x00⟩
  | .led _ _ => ⟨.std11, 10, 5, 0x1⟩
  | .adc _ _ => ⟨.std11, 10, 5, 0x2⟩
  | .switch _ _ => ⟨.std11, 10, 5, 0x3⟩
  | .quadenc _ _ => ⟨.std11, 10, 5, 0x4⟩
  | .detect1 _ _ => ⟨.ext29, 28, 24, 0x1F⟩
  | .detect2 _ _ => ⟨.ext29, 28, 24, 0x1E⟩
  | .detect3 _ _ => ⟨.ext29, 28, 24, 0x1D⟩
  | .detect4 _ _ => ⟨.ext29, 28, 24, 0x1C⟩
  | .ackId _ _ => ⟨.ext29, 28, 24, 0x1B⟩
  | .broadcast _ _ => ⟨.ext29, 28, 24, 0x00⟩
  | .firmware _ _ => ⟨.ext29, 28, 24, 0x01⟩
  | .sercan _ _ => ⟨.payload, 15, 11, 0x00⟩
  | .serhost _ _ => ⟨.payload, 15, 8, 0xFF⟩
  | .numPnls _ => ⟨.payload, 15, 0, 0xFF01⟩
  | .pnlInfo _ => ⟨.payload, 15, 0, 0xFF02⟩
  | .reset _ => ⟨.payload, 15, 0, 0xFFFF⟩

/-- A transaction carries the fixed bits of a row on the row's port. A payload's word is its serial id
(30_encoding.md R53). -/
def Row.fits (r : Row) : Transaction → Prop
  | .op sel _ => r.port = .opSel ∧ slice sel.toNat r.hi r.lo = r.value
  | .serRx b => r.port = .stream ∧ slice b.toNat r.hi r.lo = r.value
  | .canRx ⟨.std id, _⟩ => r.port = .std11 ∧ slice id.toNat r.hi r.lo = r.value
  | .canRx ⟨.ext id, _⟩ => r.port = .ext29 ∧ slice id.toNat r.hi r.lo = r.value
  | .payload (b0 :: b1 :: _) => r.port = .payload ∧ slice (id16 b0 b1) r.hi r.lo = r.value
  | .payload _ => False

/-- The encoder's transaction of a well-formed instruction fits its row. -/
def Statement (i : Instr) : Prop :=
  ∀ pr : Params, pr.sidW = .five → i.wellFormed pr = true → (row i).fits (encode pr i)

/-- The ids of the runtime opcodes (30_encoding.md R50). -/
theorem std_fits (w : SidW) (hw : w = .five) (opc : BitVec opcW) (sid : BitVec 6) (h : sid.toNat < 2 ^ w.bits) :
    slice (stdIdOf w opc sid.toNat).toNat 10 5 = opc.toNat := by
  subst hw
  have ho := opc_lt opc
  rw [slice_eq, stdIdOf_toNat _ _ _ h]
  simp only [SidW.bits] at h ⊢
  omega

/-- The ids of the tags (30_encoding.md R51). -/
theorem ext_fits (tag : BitVec tagW) (arg : BitVec argW) : slice (extIdOf tag arg).toNat 28 24 = tag.toNat := by
  have ht := tag_lt tag
  have ha := arg_lt arg
  rw [slice_eq, extIdOf_toNat]
  omega

/-- The serial ids of the host sub-commands (30_encoding.md R52). -/
theorem host_fits (sub : Byte) : slice (id16 Config.hostSentinel sub) 15 0 = 0xFF00 + sub.toNat := by
  have h := sub.isLt
  have hs : Config.hostSentinel.toNat = 255 := rfl
  rw [slice_eq, id16_eq, hs]
  omega

theorem rst : Statement .rst := fun _ _ _ => ⟨rfl, rfl⟩

theorem encFrame (p : Bytes) : Statement (.encFrame p) := fun _ _ _ => ⟨rfl, rfl⟩

theorem decPush (b : Byte) : Statement (.decPush b) := fun _ _ _ => ⟨rfl, rfl⟩

theorem cntRead (sel : BitVec 2) : Statement (.cntRead sel) := fun _ _ _ => ⟨rfl, rfl⟩

theorem stdPack (opc : BitVec opcW) (sid : Nat) : Statement (.stdPack opc sid) := fun _ _ _ => ⟨rfl, rfl⟩

theorem stdUnpack (id : BitVec stdW) : Statement (.stdUnpack id) := fun _ _ _ => ⟨rfl, rfl⟩

theorem extPack (tag : BitVec tagW) (arg : BitVec argW) : Statement (.extPack tag arg) := fun _ _ _ => ⟨rfl, rfl⟩

theorem extUnpack (id : BitVec extW) : Statement (.extUnpack id) := fun _ _ _ => ⟨rfl, rfl⟩

theorem serJoin (m : CanMsg) : Statement (.serJoin m) := fun _ _ _ => ⟨rfl, rfl⟩

theorem serSplit (p : Bytes) : Statement (.serSplit p) := fun _ _ _ => ⟨rfl, rfl⟩

theorem hostBuild (sub : Byte) (args : Bytes) : Statement (.hostBuild sub args) := fun _ _ _ => ⟨rfl, rfl⟩

theorem hostClassify (sub : Byte) : Statement (.hostClassify sub) := fun _ _ _ => ⟨rfl, rfl⟩

theorem rtRoute (u : StdFields) (data : Bytes) : Statement (.rtRoute u data) := fun _ _ _ => ⟨rfl, rfl⟩

theorem delim : Statement .delim := fun _ _ _ => ⟨rfl, rfl⟩

theorem led (sid : BitVec 6) (data : Bytes) : Statement (.led sid data) :=
  fun _ hw h => ⟨rfl, std_fits _ hw _ sid ((sidFits_iff _ _).1 (Bool.and_eq_true_iff.1 h).1)⟩

theorem adc (sid : BitVec 6) (data : Bytes) : Statement (.adc sid data) :=
  fun _ hw h => ⟨rfl, std_fits _ hw _ sid ((sidFits_iff _ _).1 (Bool.and_eq_true_iff.1 h).1)⟩

theorem switch (sid : BitVec 6) (data : Bytes) : Statement (.switch sid data) :=
  fun _ hw h => ⟨rfl, std_fits _ hw _ sid ((sidFits_iff _ _).1 (Bool.and_eq_true_iff.1 h).1)⟩

theorem quadenc (sid : BitVec 6) (data : Bytes) : Statement (.quadenc sid data) :=
  fun _ hw h => ⟨rfl, std_fits _ hw _ sid ((sidFits_iff _ _).1 (Bool.and_eq_true_iff.1 h).1)⟩

theorem detect1 (arg : BitVec argW) (data : Bytes) : Statement (.detect1 arg data) := fun _ _ _ => ⟨rfl, ext_fits _ arg⟩

theorem detect2 (arg : BitVec argW) (data : Bytes) : Statement (.detect2 arg data) := fun _ _ _ => ⟨rfl, ext_fits _ arg⟩

theorem detect3 (arg : BitVec argW) (data : Bytes) : Statement (.detect3 arg data) := fun _ _ _ => ⟨rfl, ext_fits _ arg⟩

theorem detect4 (arg : BitVec argW) (data : Bytes) : Statement (.detect4 arg data) := fun _ _ _ => ⟨rfl, ext_fits _ arg⟩

theorem ackId (arg : BitVec argW) (data : Bytes) : Statement (.ackId arg data) := fun _ _ _ => ⟨rfl, ext_fits _ arg⟩

theorem broadcast (arg : BitVec argW) (data : Bytes) : Statement (.broadcast arg data) := fun _ _ _ => ⟨rfl, ext_fits _ arg⟩

theorem firmware (arg : BitVec argW) (data : Bytes) : Statement (.firmware arg data) := fun _ _ _ => ⟨rfl, ext_fits _ arg⟩

theorem sercan (id : BitVec stdW) (data : Bytes) : Statement (.sercan id data) := by
  intro pr _ _
  have h := stdId_lt id
  simp only [encode, serCanPayload, idBytes_eq, List.cons_append, List.nil_append, Row.fits, row, slice_eq,
    id16_eq, true_and]
  simp
  omega

theorem serhost (sub : Byte) (args : Bytes) : Statement (.serhost sub args) := by
  intro pr _ _
  have := sub.isLt
  have hs : Config.hostSentinel.toNat = 255 := rfl
  simp only [encode, serHostPayload, Row.fits, row, slice_eq, id16_eq, hs, true_and]
  omega

theorem numPnls (args : Bytes) : Statement (.numPnls args) := fun _ _ _ => ⟨rfl, host_fits 0x01⟩

theorem pnlInfo (args : Bytes) : Statement (.pnlInfo args) := fun _ _ _ => ⟨rfl, host_fits 0x02⟩

theorem reset (args : Bytes) : Statement (.reset args) := fun _ _ _ => ⟨rfl, host_fits 0xFF⟩

end Sys2Proof.Laws.EncodeMatchesRow
end

