-- ==== Sys2Proof/Tests/Slice0.lean ====
section
/-! SUPPORT. Tests of the model. Expected values are those of spec/95_test_vectors.md (its vector is named), or
worked by hand from the encodings of spec/30_encoding.md; then, for every statement with hypotheses, a
theorem that shows values which meet them. -/

namespace Sys2Proof.Tests

open Sys2Proof.Machine Sys2Proof.Safety

/-! ### Helpers -/

/-- The state after reset with bytes accumulated. -/
def holding (m : Memory) : State := { State.reset with rxBuf := m }

/-- The state after reset with PanelTable rows for the short ids 1, 2 and 3 (95 §2.9). -/
def panels : State := { State.reset with ptPresent := 0b1110 }

/-- The state after reset with one transaction presented. -/
def presented (t : Transaction) : State := { panels with pending := [⟨t, 0b1110, true⟩] }

/-- What an outcome returns. -/
def answer (o : Host.Outcome State Fault Refusal) : Option Result :=
  match o with
  | .next s => s.result
  | _ => none

/-- The four counters that an outcome leaves. -/
def counters (o : Host.Outcome State Fault Refusal) : List Nat :=
  match o with
  | .next s => [s.cntOverflow, s.cntChecksum, s.cntShort, s.cntUnknown]
  | _ => []

/-- The bytes that an outcome leaves emitted. -/
def emitted (o : Host.Outcome State Fault Refusal) : Bytes :=
  match o with
  | .next s => s.serTx
  | _ => []

/-- The events other than `NONE` of a byte sequence pushed after reset. -/
def eventsOf (bytes : Bytes) : List (Option Result) :=
  (results bytes.length (pushing State.reset bytes)).filter (· != event .none)

/-- The counters after a byte sequence pushed after reset. -/
def countersOf (bytes : Bytes) : List Nat := counters (after bytes.length (pushing State.reset bytes))

/-! ### WellFormed: an ill-formed term for each check -/

theorem test_wf_enc_in (p q : Bytes) (hp : p.length = 256) (hq : q.length = 255) :
    Instr.wellFormed .standard (.encFrame p) = false ∧ Instr.wellFormed .standard (.encFrame q) = true := by
  simp [Instr.wellFormed, Config.encInMax, hp, hq]

theorem test_wf_ser_join_data : Instr.wellFormed .standard (.serJoin ⟨.std 1, List.replicate 9 1⟩) = false ∧
    Instr.wellFormed .standard (.serJoin ⟨.std 1, List.replicate 8 1⟩) = true := by decide

theorem test_wf_route_data :
    Instr.wellFormed .standard (.rtRoute ⟨.runtime, 1, 1, 0⟩ (List.replicate 9 1)) = false := by decide

theorem test_wf_route_class :
    Instr.wellFormed .standard (.rtRoute ⟨.runtime, 5, 1, 0⟩ []) = false ∧
    Instr.wellFormed .standard (.rtRoute ⟨.unknown, 4, 1, 0⟩ []) = false ∧
    Instr.wellFormed .standard (.rtRoute ⟨.runtime, 4, 1, 0⟩ []) = true := by decide

theorem test_wf_route_fields :
    Instr.wellFormed .standard (.rtRoute ⟨.runtime, 1, 32, 0⟩ []) = false ∧
    Instr.wellFormed ⟨4, .six, 32⟩ (.rtRoute ⟨.runtime, 1, 32, 0⟩ []) = true ∧
    Instr.wellFormed ⟨4, .six, 32⟩ (.rtRoute ⟨.unknown, 1, 1, 2⟩ []) = false := by decide

theorem test_wf_runtime_sid :
    Instr.wellFormed .standard (.led 32 []) = false ∧ Instr.wellFormed .standard (.adc 32 []) = false ∧
    Instr.wellFormed .standard (.switch 32 []) = false ∧
    Instr.wellFormed .standard (.quadenc 32 []) = false ∧
    Instr.wellFormed ⟨4, .six, 32⟩ (.led 63 []) = true := by decide

theorem test_wf_runtime_data :
    Instr.wellFormed .standard (.led 1 (List.replicate 9 1)) = false ∧
    Instr.wellFormed .standard (.adc 1 (List.replicate 9 1)) = false ∧
    Instr.wellFormed .standard (.switch 1 (List.replicate 9 1)) = false ∧
    Instr.wellFormed .standard (.quadenc 1 (List.replicate 9 1)) = false := by decide

theorem test_wf_extended_data :
    Instr.wellFormed .standard (.detect1 1 (List.replicate 9 1)) = false ∧
    Instr.wellFormed .standard (.detect2 1 (List.replicate 9 1)) = false ∧
    Instr.wellFormed .standard (.detect3 1 (List.replicate 9 1)) = false ∧
    Instr.wellFormed .standard (.detect4 1 (List.replicate 9 1)) = false ∧
    Instr.wellFormed .standard (.ackId 1 (List.replicate 9 1)) = false ∧
    Instr.wellFormed .standard (.broadcast 1 (List.replicate 9 1)) = false ∧
    Instr.wellFormed .standard (.firmware 1 (List.replicate 9 1)) = false := by decide

theorem test_wf_sercan_data : Instr.wellFormed .standard (.sercan 1 (List.replicate 9 1)) = false := by decide

theorem test_wf_serhost_sub :
    Instr.wellFormed .standard (.serhost 0x01 []) = false ∧
    Instr.wellFormed .standard (.serhost 0x02 []) = false ∧
    Instr.wellFormed .standard (.serhost 0xFF []) = false ∧
    Instr.wellFormed .standard (.serhost 0x03 []) = true := by decide

/-! ### Decode: a word for every constructor, bit by bit from R46, R47, R50 to R53, R56 -/

theorem test_decode_rst : decode .standard (.op 0b0000 {}) = .ok .rst := rfl

theorem test_decode_enc_frame : decode .standard (.op 0b0001 { encIn := [0x00, 0x23] }) =
    .ok (.encFrame [0x00, 0x23]) := rfl

theorem test_decode_dec_push : decode .standard (.op 0b0010 { serRx := 0x05 }) = .ok (.decPush 0x05) ∧
    decode .standard (.serRx 0x05) = .ok (.decPush 0x05) := ⟨rfl, rfl⟩

theorem test_decode_cnt_read : decode .standard (.op 0b0011 { cntSel := 0b11 }) = .ok (.cntRead 3) := rfl

theorem test_decode_std_pack : decode .standard (.op 0b0100 { opc := 3, sid := 64 }) =
    .ok (.stdPack 3 64) := rfl

theorem test_decode_std_unpack : decode .standard (.op 0b0101 { id11 := 0x065 }) =
    .ok (.stdUnpack 0x065) := rfl

theorem test_decode_ext_pack : decode .standard (.op 0b0110 { tag := 0x1F, arg := 0xABCDEF }) =
    .ok (.extPack 0x1F 0xABCDEF) := rfl

theorem test_decode_ext_unpack : decode .standard (.op 0b0111 { id29 := 0x1FABCDEF }) =
    .ok (.extUnpack 0x1FABCDEF) := rfl

theorem test_decode_ser_join : decode .standard (.op 0b1000 { msg := ⟨.std 0x023, [0x01, 0x02]⟩ }) =
    .ok (.serJoin ⟨.std 0x023, [0x01, 0x02]⟩) := rfl

theorem test_decode_ser_split : decode .standard (.op 0b1001 { payload := [0xFF, 0x01] }) =
    .ok (.serSplit [0xFF, 0x01]) := rfl

theorem test_decode_host_build : decode .standard (.op 0b1010 { sub := 0x02, args := [0x00] }) =
    .ok (.hostBuild 0x02 [0x00]) := rfl

theorem test_decode_host_classify : decode .standard (.op 0b1011 { sub := 0x03 }) =
    .ok (.hostClassify 0x03) := rfl

theorem test_decode_rt_route :
    decode .standard (.op 0b1100 { fields := ⟨.runtime, 3, 2, 0⟩, data := [0x02, 0x01] }) =
    .ok (.rtRoute ⟨.runtime, 3, 2, 0⟩ [0x02, 0x01]) := rfl

theorem test_decode_delim : decode .standard (.serRx 0b00000000) = .ok .delim := rfl

theorem test_decode_led : decode .standard (.canRx ⟨.std 0b00_0001_00011, [0x01]⟩) =
    .ok (.led 0b00011 [0x01]) := rfl

theorem test_decode_adc : decode .standard (.canRx ⟨.std 0b00_0010_00001, []⟩) = .ok (.adc 1 []) := rfl

theorem test_decode_switch : decode .standard (.canRx ⟨.std 0b00_0011_00101, []⟩) =
    .ok (.switch 5 []) := rfl

theorem test_decode_quadenc : decode .standard (.canRx ⟨.std 0b00_0100_11111, []⟩) =
    .ok (.quadenc 31 []) := rfl

theorem test_decode_sid_w_six : decode ⟨4, .six, 32⟩ (.canRx ⟨.std 0b0_0001_100101, []⟩) =
    .ok (.led 37 []) := rfl

theorem test_decode_detect1 : decode .standard (.canRx ⟨.ext 0x1FABCDEF, []⟩) =
    .ok (.detect1 0xABCDEF []) := rfl

theorem test_decode_detect2 : decode .standard (.canRx ⟨.ext 0x1E123456, [0x07]⟩) =
    .ok (.detect2 0x123456 [0x07]) := rfl

theorem test_decode_detect3 : decode .standard (.canRx ⟨.ext 0x1D000001, []⟩) = .ok (.detect3 1 []) := rfl

theorem test_decode_detect4 : decode .standard (.canRx ⟨.ext 0x1C000123, []⟩) =
    .ok (.detect4 0x123 []) := rfl

theorem test_decode_ack_id : decode .standard (.canRx ⟨.ext 0x1B000005, []⟩) = .ok (.ackId 5 []) := rfl

theorem test_decode_broadcast : decode .standard (.canRx ⟨.ext 0x00FFFFFF, []⟩) =
    .ok (.broadcast 0xFFFFFF []) := rfl

theorem test_decode_firmware : decode .standard (.canRx ⟨.ext 0x01000000, []⟩) =
    .ok (.firmware 0 []) := rfl

theorem test_decode_sercan : decode .standard (.payload [0x07, 0xFF, 0x00]) =
    .ok (.sercan 0x7FF [0x00]) := rfl

theorem test_decode_serhost : decode .standard (.payload [0xFF, 0x03, 0x09]) =
    .ok (.serhost 0x03 [0x09]) := rfl

theorem test_decode_num_pnls : decode .standard (.payload [0xFF, 0x01, 0x00]) = .ok (.numPnls [0x00]) := rfl

theorem test_decode_pnl_info : decode .standard (.payload [0xFF, 0x02, 0x00]) = .ok (.pnlInfo [0x00]) := rfl

theorem test_decode_reset : decode .standard (.payload [0xFF, 0xFF, 0x00]) = .ok (.reset [0x00]) := rfl

theorem test_decode_reserved_op : decode .standard (.op 0xD {}) = .error (.opReserved 0xD) ∧
    decode .standard (.op 0xF {}) = .error (.opReserved 0xF) := ⟨rfl, rfl⟩

theorem test_decode_reserved_std : decode .standard (.canRx ⟨.std 0x0A1, []⟩) =
    .error (.stdUnknown ⟨.unknown, 5, 1, 0⟩) ∧
    decode .standard (.canRx ⟨.std 0x223, []⟩) = .error (.stdUnknown ⟨.unknown, 1, 3, 1⟩) := ⟨rfl, rfl⟩

theorem test_decode_reserved_tag : decode .standard (.canRx ⟨.ext 0x1AFFFFFF, []⟩) =
    .error (.extUnknown ⟨.unknown, 0x1A, 0xFFFFFF⟩) := rfl

theorem test_decode_reserved_payload :
    decode .standard (.payload [0x08, 0x00, 0x01]) = .error (.payloadUnknown .idReserved) ∧
    decode .standard (.payload [0x05]) = .error (.payloadUnknown .noId) ∧
    decode .standard (.payload (0x00 :: 0x41 :: List.replicate 9 1)) = .error (.payloadUnknown .dataTooLong) :=
  ⟨rfl, rfl, rfl⟩

theorem test_decode_ill_formed :
    decode .standard (.canRx ⟨.std 0x021, List.replicate 9 1⟩) = .error .illFormed ∧
    decode .standard (.op 0xC { fields := ⟨.runtime, 5, 1, 0⟩ }) = .error .illFormed := ⟨rfl, rfl⟩

/-! ### The table's words and a step from them -/

theorem test_table_led : decodeTableWord 16 0x020 = some (.led 0 []) ∧
    decodeTableWord 16 0x09F = some (.quadenc 31 []) ∧ decodeTableWord 16 0x0000 = some (.sercan 0 []) := by
  decide

theorem test_table_step :
    step (State.reset.withFetchWord 16 0xFFFF) = exec (.reset []) State.reset ∧
    step (State.reset.withFetchWord 8 0x1) = exec (.encFrame []) State.reset ∧
    step (State.reset.withFetchWord 32 0x00000000) = exec (.broadcast 0 []) State.reset :=
  ⟨rfl, rfl, rfl⟩

theorem test_step_ill_formed_faults :
    step (presented (.canRx ⟨.std 0x021, List.replicate 9 1⟩)) = .fault .notATransaction := rfl

/-! ### Framer (95 §2.1 to §2.3) -/

/-- K7, K10. -/
theorem test_cks : cks [0x12, 0x34, 0x56] = 0x64 ∧ cks (List.replicate 11 0xFF) = 0x0B := by decide

/-- R61 and R70, worked examples. -/
theorem test_stuff : stuff [0x00, 0x23, 0x01, 0x02, 0xDA] = [0x01, 0x05, 0x23, 0x01, 0x02, 0xDA] ∧
    unstuff [0x03, 0xFF, 0x01, 0x01] = some [0xFF, 0x01, 0x00] ∧
    unstuff [0x01, 0x06, 0x23, 0x01, 0x02, 0xDA] = none ∧ unstuff [0x01] = some [] := by decide

/-- P5, the last reset. -/
theorem test_rst : counters (exec .rst { holding [1, 2] with cntShort := 1, cntUnknown := 1 }) =
    [0, 0, 0, 0] := by decide

/-- E18. -/
theorem test_enc_frame : emitted (exec (.encFrame [0x00, 0x21, 0x00, 0x00, 0xDF]) State.reset) =
    [0x01, 0x02, 0x21, 0x01, 0x02, 0xDF, 0x01, 0x00] := by decide

/-- E20. -/
theorem test_enc_frame_too_long : exec (.encFrame (List.replicate 12 0)) State.reset =
    .next { State.reset with result := some (.refuse .tooLong) } := rfl

/-- D14: the 14th data byte. -/
theorem test_dec_push_overflow : counters (exec (.decPush 0x11) (holding (List.replicate 13 0x11))) =
    [1, 0, 0, 0] := by decide

/-- D9: bad sum and short, the sum first. -/
theorem test_dec_push_sum_before_short :
    answer (exec (.decPush 0x00) (holding [0x03, 0x01, 0x01])) = event (.drop .checksumSum) := by decide

/-- D2. -/
theorem test_delim_delivers : answer (exec .delim (holding [0x03, 0xFF, 0x01, 0x01, 0x01])) =
    event (.deliver [0xFF, 0x01, 0x00]) := by decide

/-- D8. -/
theorem test_delim_chain : counters (exec .delim (holding [0x02])) = [0, 1, 0, 0] := by decide

/-- `CNT.READ` after D15. -/
theorem test_cnt_read : answer (exec (.cntRead 1) { State.reset with cntChecksum := 1 }) =
    some (.count 1) := by decide

/-- A counter at its largest value stays there (R14). -/
theorem test_saturation :
    counters (exec .delim { holding [0x02] with cntChecksum := 4294967295 }) = [0, 4294967295, 0, 0] := by
  decide

/-- F4. -/
theorem test_flip_first_code : eventsOf [0x03, 0x05, 0x23, 0x01, 0x02, 0xDA, 0x00] =
    [event (.drop .checksumSum)] := by decide

/-- D15. -/
theorem test_tail_of_long_run : countersOf (List.replicate 15 0x11 ++ [0x00]) = [1, 1, 0, 0] := by decide

/-! ### Translator (95 §2.5 to §2.9) -/

/-- S7, S13. -/
theorem test_std_pack : answer (exec (.stdPack 4 31) State.reset) = some (.stdId 0x09F) ∧
    answer (exec (.stdPack 5 0) State.reset) = some (.refuse .opcReserved) := by decide

/-- S11 with both widths. -/
theorem test_std_pack_width : answer (exec (.stdPack 1 32) State.reset) = some (.refuse .sidRange) ∧
    answer (exec (.stdPack 1 32) (State.resetWith ⟨4, .six, 32⟩)) = some (.stdId 0x060) := by decide

/-- S21, S17 with `SID_W` 6. -/
theorem test_std_unpack : answer (exec (.stdUnpack 0x223) State.reset) =
    some (.stdFields ⟨.unknown, 1, 3, 1⟩) ∧
    answer (exec (.stdUnpack 0x065) (State.resetWith ⟨4, .six, 32⟩)) =
      some (.stdFields ⟨.runtime, 1, 37, 0⟩) := by decide

/-- X3, X9. -/
theorem test_ext_pack : answer (exec (.extPack 0x1E 0x123456) State.reset) = some (.extId 0x1E123456) ∧
    answer (exec (.extPack 0x1A 1) State.reset) = some (.refuse .tagReserved) := by decide

/-- X11, X17. -/
theorem test_ext_unpack : answer (exec (.extUnpack 0x1C000123) State.reset) =
    some (.extFields ⟨.detect4, 0x1C, 0x000123⟩) ∧
    answer (exec (.extUnpack 0x1AFFFFFF) State.reset) =
      some (.extFields ⟨.unknown, 0x1A, 0xFFFFFF⟩) := by decide

/-- J4, J5. -/
theorem test_ser_join : answer (exec (.serJoin ⟨.std 0x7FF, [0x00]⟩) State.reset) =
    some (.payload [0x07, 0xFF, 0x00]) ∧
    answer (exec (.serJoin ⟨.ext 0x1FABCDEF, []⟩) State.reset) = some (.refuse .extOnSerial) := by decide

/-- J6, J10. -/
theorem test_ser_split : answer (exec (.serSplit [0x00, 0x23, 0x01, 0x02]) State.reset) =
    some (.split (.can 0x023 [0x01, 0x02])) ∧
    answer (exec (.serSplit [0xFE, 0xFF, 0x00]) State.reset) = some (.split (.unknown .idReserved)) := by
  decide

/-- H5, H6. -/
theorem test_host_build : answer (exec (.hostBuild 0x03 [0x09]) State.reset) = some (.refuse .subReserved) ∧
    answer (exec (.hostBuild 0x02 (List.replicate 10 0)) State.reset) = some (.refuse .tooLong) := by decide

/-- H9, H11. -/
theorem test_host_classify : answer (exec (.hostClassify 0x02) State.reset) = some (.hostCmd .pnlInfo) ∧
    answer (exec (.hostClassify 0x00) State.reset) = some (.hostCmd .hostUnknown) := by decide

/-- B1, B2. -/
theorem test_rt_route : answer (exec (.rtRoute ⟨.runtime, 3, 2, 0⟩ [0x02, 0x01]) panels) =
    some (.route (.event 2 3 [0x02, 0x01])) ∧
    answer (exec (.rtRoute ⟨.runtime, 3, 5, 0⟩ [0x02, 0x01]) panels) = some (.route .noop) := by decide

/-- B3: short id 0 has no row even where the environment drives bit 0 (R21). -/
theorem test_rt_route_zero :
    answer (exec (.rtRoute ⟨.runtime, 1, 0, 0⟩ []) { panels with ptPresent := 0b1111 }) =
    some (.route .noop) := by decide

/-! ### Bridging (95 §2.9) -/

/-- From P1: `LED` of short id 3, from the bus. -/
theorem test_led : emitted (exec (.led 3 [0x01, 0x02]) panels) =
    [0x01, 0x05, 0x23, 0x01, 0x02, 0xDA, 0x00] := by decide

/-- E8. -/
theorem test_adc : emitted (exec (.adc 1 [0x03, 0xFF]) panels) =
    [0x01, 0x05, 0x41, 0x03, 0xFF, 0xBD, 0x00] := by decide

/-- B11. -/
theorem test_switch : emitted (exec (.switch 2 [0x02, 0x01]) panels) =
    [0x01, 0x05, 0x62, 0x02, 0x01, 0x9B, 0x00] ∧
    answer (exec (.switch 2 [0x02, 0x01]) panels) =
      some (.c2s (.forwarded (.event 2 3 [0x02, 0x01]))) := by decide

/-- B12, by the fourth opcode; and E16. -/
theorem test_quadenc : answer (exec (.quadenc 5 [0x02]) panels) = some (.c2s .noop) ∧
    emitted (exec (.quadenc 31 [1, 2, 3, 4, 5, 6, 7, 8]) { panels with ptPresent := 0x80000000 }) =
      [0x01, 0x0B, 0x9F, 1, 2, 3, 4, 5, 6, 7, 8, 0x3D, 0x00] := by decide

/-- B14, and the other six tags by R107. -/
theorem test_detect1 : answer (exec (.detect1 0xABCDEF []) panels) =
    some (.c2s (.handLocal ⟨.detect1, 0x1F, 0xABCDEF⟩ [])) := by decide

theorem test_detect2 : answer (exec (.detect2 1 [7]) panels) =
    some (.c2s (.handLocal ⟨.detect2, 0x1E, 1⟩ [7])) := by decide

theorem test_detect3 : answer (exec (.detect3 1 [7]) panels) =
    some (.c2s (.handLocal ⟨.detect3, 0x1D, 1⟩ [7])) := by decide

theorem test_detect4 : answer (exec (.detect4 1 [7]) panels) =
    some (.c2s (.handLocal ⟨.detect4, 0x1C, 1⟩ [7])) := by decide

theorem test_ack_id : answer (exec (.ackId 5 [7]) panels) =
    some (.c2s (.handLocal ⟨.ackId, 0x1B, 5⟩ [7])) := by decide

theorem test_broadcast : answer (exec (.broadcast 0 []) panels) =
    some (.c2s (.handLocal ⟨.broadcast, 0x00, 0⟩ [])) := by decide

theorem test_firmware : answer (exec (.firmware 0 []) panels) =
    some (.c2s (.handLocal ⟨.firmware, 0x01, 0⟩ [])) := by decide

/-- B6. -/
theorem test_sercan : exec (.sercan 0x023 [0x01, 0x02]) panels =
    .next { panels with
      canTx := [⟨.std 0x023, [0x01, 0x02]⟩], result := some (.s2c (.sent false)) } := rfl

/-- B7. -/
theorem test_sercan_unknown : counters (exec (.sercan 0x0A1 [0x00]) panels) = [0, 0, 0, 1] := by decide

/-- B10. -/
theorem test_serhost : counters (exec (.serhost 0x03 [0x09]) panels) = [0, 0, 0, 1] := by decide

/-- P5: `HOSTCMD(NUM_PNLS, [00])`. -/
theorem test_num_pnls : answer (exec (.numPnls [0x00]) panels) = some (.s2c (.hostCmd .numPnls [0x00])) := by
  decide

/-- B9. -/
theorem test_pnl_info : answer (exec (.pnlInfo [0x00]) panels) = some (.s2c (.hostCmd .pnlInfo [0x00])) := by
  decide

/-- P5: the command is not `RST`. -/
theorem test_reset_command :
    counters (exec (.reset [0x00]) { panels with cntShort := 1, cntUnknown := 1 }) = [0, 0, 1, 1] := by decide

/-- B8, B13, B15 through the step. -/
theorem test_step_drops :
    counters (step (presented (.payload [0x23, 0x01, 0x02]))) = [0, 0, 0, 1] ∧
    counters (step (presented (.canRx ⟨.std 0x0A1, [0x00]⟩))) = [0, 0, 0, 1] ∧
    counters (step (presented (.canRx ⟨.ext 0x02000000, []⟩))) = [0, 0, 0, 1] := by decide

/-! ### Outcome codes (R150) -/

theorem test_codes : (Result.dec (.drop .checksumSum)).code = some 3 ∧ (Result.refuse .opReserved).code =
    some 12 ∧ (Result.stdFields ⟨.unknown, 5, 1, 0⟩).code = some 16 ∧
    (Result.s2c (.sent false)).code = some 20 ∧ Result.encOk.code = none := by decide

/-! ### Witnesses: values that meet a statement's hypotheses, one per clause at a boundary of its range -/

/-- A state that differs from reset in the buffer only meets the invariant when the buffer does. -/
theorem inv_holding {m : Memory} (h : m.wf = true) : Inv (holding m) :=
  ⟨h, fun c => by cases c <;> exact Nat.two_pow_pos 32⟩

theorem witness_decode_of_encode :
    Instr.wellFormed .standard (.quadenc 31 (List.replicate 8 0xFF)) = true ∧
    Instr.wellFormed .standard (.rtRoute ⟨.unknown, 15, 31, 3⟩ (List.replicate 8 0)) = true ∧
    Instr.wellFormed .standard (.serhost 0x00 []) = true := by decide

theorem witness_encode_of_decoded_arrival :
    decode .standard (.canRx ⟨.ext 0x1FFFFFFF, List.replicate 8 0⟩) =
      .ok (.detect1 0xFFFFFF (List.replicate 8 0)) ∧
    decode .standard (.payload [0xFF, 0xFF]) = .ok (.reset []) ∧
    decode .standard (.serRx 0) = .ok .delim := ⟨rfl, rfl, rfl⟩

theorem witness_step_runs : (presented (.op 0x3 { cntSel := 2 })).pending =
      ⟨.op 0x3 { cntSel := 2 }, 0b1110, true⟩ :: [] ∧
    decode panels.params (.op 0x3 { cntSel := 2 }) = .ok (.cntRead 2) := ⟨rfl, rfl⟩

theorem witness_step_waits : State.reset.pending = [] := rfl

theorem witness_reserved_selector : (presented (.op 0xD {})).pending = ⟨.op 0xD {}, 0b1110, true⟩ :: [] ∧
    0xD ≤ (0xD : BitVec 4).toNat ∧ 0xD ≤ (0xF : BitVec 4).toNat := by decide

theorem witness_never_halts : ∀ r ∈ (presented (.op 0xF {})).pending.head?,
    decode panels.params r.txn ≠ .error .illFormed := by
  intro r hr
  cases hr
  intro h
  cases h

theorem witness_bridges :
    (List.replicate 8 (0 : Byte)).length ≤ 8 ∧
    (presented (.canRx ⟨.std 0x7FF, List.replicate 8 0⟩)).pending =
      ⟨.canRx ⟨.std 0x7FF, List.replicate 8 0⟩, 0b1110, true⟩ :: [] ∧
    (presented (.payload [])).pending = ⟨.payload [], 0b1110, true⟩ :: [] := by decide

theorem witness_reset_values : State.reset = State.reset ∧
    State.resetWith ⟨1, .six, 8⟩ = State.resetWith ⟨1, .six, 8⟩ := ⟨rfl, rfl⟩

theorem witness_rst_clears : exec .rst { State.reset with cntShort := 1 } = .next State.reset ∧
    State.reset.count .short < State.count { State.reset with cntShort := 1 } .short := ⟨rfl, by decide⟩

theorem witness_step_keeps_invariant : Inv (holding (List.replicate 13 1)) ∧
    step (holding (List.replicate 13 1)) = .next (holding (List.replicate 13 1)) :=
  ⟨inv_holding (by decide), rfl⟩

theorem witness_streams_append :
    step { State.reset with serTx := [0x05], pending := [⟨.op 0x1 { encIn := [] }, 0, false⟩] } =
      .next { State.reset with serTx := [0x05] ++ [0x01, 0x01, 0x00], result := some .encOk } := rfl

theorem witness_counters_fall :
    step { State.reset with cntOverflow := 1, pending := [⟨.op 0x0 {}, 0, false⟩] } = .next State.reset ∧
    State.reset.count .overflow <
      State.count { State.reset with cntOverflow := 1, pending := [⟨.op 0x0 {}, 0, false⟩] } .overflow :=
  ⟨rfl, by decide⟩

theorem witness_stuffed_layout :
    1 ≤ ([0x00] : Bytes).length ∧ (List.replicate 12 (0x05 : Byte)).length ≤ 12 ∧
    ([0x05, 0x00] : Bytes).getD 0 0 ≠ 0 ∧ ([0x05, 0x00] : Bytes).getD 1 0 = 0 := by decide

theorem witness_stuff_properties : stuff [0x00] = stuff [0x00] ∧ 1 ≤ ([0x00] : Bytes).length ∧
    (List.replicate 12 (0x00 : Byte)).length ≤ 12 := by decide

theorem witness_enc_frame :
    sumBytes (List.replicate 11 0xFF ++ [(0x0B : Byte)]) % 256 = 0 ∧
    (List.replicate 11 (0xFF : Byte)).length ≤ 11 ∧
    sumBytes (List.replicate 12 0x00 ++ [(0x00 : Byte)]) % 256 = 0 ∧
    11 < (List.replicate 12 (0x00 : Byte)).length := by decide

theorem witness_frame_laws :
    exec (.encFrame []) State.reset =
      .next { State.reset with serTx := [0x01, 0x01, 0x00], result := some .encOk } ∧
    ([0x01, 0x01, 0x00] : Bytes) = State.reset.serTx ++ [0x01, 0x01, 0x00] ∧
    exec (.encFrame (List.replicate 11 0)) State.reset =
      .next { State.reset with serTx := List.replicate 13 0x01 ++ [0x00], result := some .encOk } ∧
    List.replicate 11 (0 : Byte) ≠ [] := ⟨rfl, rfl, rfl, by decide⟩

theorem witness_push_stores : (0xFF : Byte) ≠ 0 ∧ (holding (List.replicate 12 1)).rxLen < 13 := by decide

theorem witness_push_overflow : Inv (holding (List.replicate 13 1)) ∧ (0x01 : Byte) ≠ 0 ∧
    (holding (List.replicate 13 1)).rxLen = 13 := ⟨inv_holding (by decide), by decide, rfl⟩

theorem witness_delimiter_idle : State.reset.rxLen = 0 := rfl

theorem witness_serial_byte : (presented (.serRx 0xFF)).pending = ⟨.serRx 0xFF, 0b1110, true⟩ :: [] := rfl

theorem witness_delimiter_chain : Inv (holding [0x02]) ∧ (holding [0x02]).rxLen ≠ 0 ∧
    unstuff (holding [0x02]).rxBuf = none := ⟨inv_holding (by decide), by decide, rfl⟩

theorem witness_delimiter_sum : Inv (holding [0x03, 0x01, 0x01]) ∧
    unstuff (holding [0x03, 0x01, 0x01]).rxBuf = some [0x01, 0x01] ∧ sumBytes [0x01, 0x01] % 256 ≠ 0 :=
  ⟨inv_holding (by decide), rfl, by decide⟩

theorem witness_delimiter_short : Inv (holding [0x03, 0xFF, 0x01, 0x01]) ∧
    unstuff (holding [0x03, 0xFF, 0x01, 0x01]).rxBuf = some [0xFF, 0x01, 0x00] ∧
    sumBytes [0xFF, 0x01, 0x00] % 256 = 0 ∧ [0xFF, 0x01, 0x00].length < State.reset.params.minBlock :=
  ⟨inv_holding (by decide), rfl, by decide, by decide⟩

theorem witness_delimiter_delivers : Inv (holding [0x03, 0xFF, 0x01, 0x01, 0x01]) ∧
    (holding [0x03, 0xFF, 0x01, 0x01, 0x01]).rxLen ≠ 0 ∧
    unstuff (holding [0x03, 0xFF, 0x01, 0x01, 0x01]).rxBuf = some ([0xFF, 0x01, 0x00] ++ [0x00]) ∧
    sumBytes ([0xFF, 0x01, 0x00] ++ [0x00]) % 256 = 0 ∧
    State.reset.params.minBlock ≤ ([0xFF, 0x01, 0x00] ++ [(0x00 : Byte)]).length :=
  ⟨inv_holding (by decide), by decide, rfl, by decide, by decide⟩

theorem witness_delivered_payload : Inv (holding (List.replicate 13 1)) ∧ 1 ≤ State.reset.params.minBlock ∧
    exec (.decPush 0) (holding (List.replicate 13 1)) =
      .next { State.reset with result := event (.deliver (List.replicate 11 0)) } :=
  ⟨inv_holding (by decide), by decide, rfl⟩

theorem witness_unstuff_accepts : ([0x01] : Bytes) ≠ [] ∧ ([0x01] : Bytes).length ≤ 255 ∧
    (∀ x ∈ ([0x01] : Bytes), x ≠ 0) ∧ stuff [] = [0x01] := by decide

theorem witness_sum_law : unstuff [0x01, 0x02, 0xFF] = some [0x00, 0xFF] := rfl

theorem witness_round_trip : State.reset.rxBuf = [] ∧ ([0x00, 0x23, 0x01] : Bytes).length ≤ 11 ∧
    State.reset.params.minBlock ≤ ([0x00, 0x23, 0x01] : Bytes).length + 1 ∧
    ([0x00, 0x23] : Bytes).length + 1 < State.reset.params.minBlock ∧
    State.reset.cntShort < 2 ^ State.reset.params.cntW := by decide

theorem witness_bit_flip : State.reset.rxBuf = [] ∧ 3 ≤ ([0x23, 0x01, 0x02] : Bytes).length ∧
    (frameOf [0x23, 0x01, 0x02]).getD 4 0 ^^^ BitVec.ofNat 8 (2 ^ 7) ≠ 0 ∧
    ([0x23, 0x01, 0x02] ++ [cks [0x23, 0x01, 0x02]]).getD (4 - 1) 0 ≠ 0 := by decide

/-- The flipped byte is the first code byte, 0x0D, which becomes 0x8D. -/
theorem witness_bit_flip_code : State.reset.rxBuf = [] ∧ 3 ≤ (List.replicate 11 (0x01 : Byte)).length ∧
    (List.replicate 11 (0x01 : Byte)).length ≤ 11 ∧
    (frameOf (List.replicate 11 0x01)).getD 0 0 ^^^ BitVec.ofNat 8 (2 ^ 7) ≠ 0 := by decide

theorem witness_leading_zero : State.reset.rxBuf = [] ∧ ([0x23, 0x01, 0x02] : Bytes).length ≤ 10 ∧
    State.reset.params.minBlock ≤ ([0x23, 0x01, 0x02] : Bytes).length + 1 := by decide

theorem witness_leading_zero_short : State.reset.rxBuf = [] ∧ ([0x23, 0x01] : Bytes).length ≤ 10 ∧
    ([0x23, 0x01] : Bytes).length + 1 < State.reset.params.minBlock ∧
    State.reset.cntShort < 2 ^ State.reset.params.cntW := by decide

theorem witness_resynchronises : State.reset.params.minBlock ≤ ([0x00, 0x23, 0x01] : Bytes).length + 1 ∧
    (List.replicate 11 (0xFF : Byte)).length ≤ 11 := by decide

theorem witness_buffer_length : (holding (List.replicate 13 1)).rxLen ≤ 13 := by decide

theorem witness_commutes : stateless (.encFrame []) = true ∧
    exec (.encFrame []) State.reset =
      .next { State.reset with serTx := [0x01, 0x01, 0x00], result := some .encOk } ∧
    exec (.decPush 5) { State.reset with serTx := [0x01, 0x01, 0x00], result := some .encOk } =
      .next { State.reset with rxBuf := [5], serTx := [0x01, 0x01, 0x00], result := event .none } ∧
    exec (.decPush 5) State.reset = .next { State.reset with rxBuf := [5], result := event .none } ∧
    exec (.encFrame []) { State.reset with rxBuf := [5], result := event .none } =
      .next { State.reset with rxBuf := [5], serTx := [0x01, 0x01, 0x00], result := some .encOk } :=
  ⟨rfl, rfl, rfl, rfl, rfl⟩

/-- Two states with different `pt_present`, on which `STD.PACK` answers the same. -/
theorem witness_stateless : stateless (.stdPack 1 1) = true ∧
    exec (.stdPack 1 1) State.reset = .next { State.reset with result := some (.stdId 0x021) } ∧
    panels.params = State.reset.params ∧ (∀ u d, Instr.stdPack 1 1 ≠ .rtRoute u d) ∧
    exec (.stdPack 1 1) panels = .next { panels with result := some (.stdId 0x021) } :=
  ⟨rfl, rfl, rfl, nofun, rfl⟩

/-- For `RT.ROUTE` the two states agree on `pt_present`. -/
theorem witness_stateless_route : stateless (.rtRoute ⟨.runtime, 1, 1, 0⟩ []) = true ∧
    exec (.rtRoute ⟨.runtime, 1, 1, 0⟩ []) State.reset =
      .next { State.reset with result := some (.route .noop) } ∧
    (holding [1]).params = State.reset.params ∧ (holding [1]).ptPresent = State.reset.ptPresent ∧
    exec (.rtRoute ⟨.runtime, 1, 1, 0⟩ []) (holding [1]) =
      .next { holding [1] with result := some (.route .noop) } := ⟨rfl, rfl, rfl, rfl, rfl⟩

theorem witness_std_pack :
    ¬(1 ≤ (5 : BitVec 4).toNat ∧ (5 : BitVec 4).toNat ≤ 4) ∧ 2 ^ SidW.five.bits - 1 < 32 ∧
    1 ≤ (1 : BitVec 4).toNat ∧ (4 : BitVec 4).toNat ≤ 4 ∧ 31 ≤ 2 ^ SidW.five.bits - 1 := by decide

theorem witness_std_inverse : 1 ≤ (31 : BitVec 6).toNat ∧ (31 : BitVec 6).toNat ≤ 2 ^ SidW.five.bits - 1 ∧
    (stdUnpack .five 0x09F).cls = .runtime ∧ (stdUnpack .five 0x09F).sid ≠ 0 := by decide

theorem witness_ext_pack : (0x1B : BitVec 5).toNat ∈ [0x1F, 0x1E, 0x1D, 0x1C, 0x1B, 0x00, 0x01] ∧
    (0x1A : BitVec 5).toNat ∉ [0x1F, 0x1E, 0x1D, 0x1C, 0x1B, 0x00, 0x01] ∧
    (0x02 : BitVec 5).toNat ∉ [0x1F, 0x1E, 0x1D, 0x1C, 0x1B, 0x00, 0x01] := by decide

theorem witness_ext_inverse : tagKind 0x01 ≠ .unknown ∧ (extUnpack 0x1B000000).kind ≠ .unknown := by decide

theorem witness_ser_join : (0x7FF : BitVec 11).toNat = (0x07 : Byte).toNat * 256 + (0xFF : Byte).toNat := by
  decide

theorem witness_ser_split : ([0xFF] : Bytes).length < 2 ∧ (0xFE : Byte) ≠ 0xFF ∧
    0x07FF < (0x08 : Byte).toNat * 256 + (0x00 : Byte).toNat ∧
    (0x07 : Byte).toNat * 256 + (0xFF : Byte).toNat ≤ 0x07FF ∧ 8 < (List.replicate 9 (0 : Byte)).length ∧
    (0x7FF : BitVec 11).toNat = (0x07 : Byte).toNat * 256 + (0xFF : Byte).toNat ∧
    (List.replicate 8 (0 : Byte)).length ≤ 8 := by decide

theorem witness_serial_inverse : serSplit [0x07, 0xFF] = .can 0x7FF [] ∧
    (List.replicate 8 (0 : Byte)).length ≤ 8 := by decide

theorem witness_host_sentinel : serJoin ⟨.std 0x7FF, []⟩ = .ok [0x07, 0xFF] := rfl

theorem witness_host_build : (0x03 : Byte) ≠ 0x01 ∧ (0x03 : Byte) ≠ 0x02 ∧ (0x03 : Byte) ≠ 0xFF ∧
    9 < (List.replicate 10 (0 : Byte)).length ∧ (List.replicate 9 (0 : Byte)).length ≤ 9 := by decide

theorem witness_host_classify : (0xFE : Byte) ≠ 0x01 ∧ (0xFE : Byte) ≠ 0x02 ∧ (0xFE : Byte) ≠ 0xFF := by
  decide

theorem witness_rt_route : panels.ptPresent.getLsbD (3 : BitVec 6).toNat = true ∧ (3 : BitVec 6) ≠ 0 ∧
    panels.ptPresent.getLsbD (4 : BitVec 6).toNat = false ∧ StdClass.unknown ≠ .runtime := by decide

theorem witness_runtime_message : (31 : BitVec 6).toNat < 2 ^ panels.params.sidW.bits ∧
    (List.replicate 8 (0 : Byte)).length ≤ 8 ∧
    (0x00 : Byte).toNat * 256 + (0x9F : Byte).toNat =
      (4 : BitVec 4).toNat * 2 ^ panels.params.sidW.bits + (31 : BitVec 6).toNat ∧
    panels.ptPresent.getLsbD (31 : BitVec 6).toNat = false ∧
    (0x00 : Byte).toNat * 256 + (0x21 : Byte).toNat =
      (1 : BitVec 4).toNat * 2 ^ panels.params.sidW.bits + (1 : BitVec 6).toNat ∧
    panels.ptPresent.getLsbD (1 : BitVec 6).toNat = true := by decide

theorem witness_extended_message : (Instr.firmware 0 [] = .firmware 0 [] ∧ ExtKind.firmware = .firmware) ∧
    (0x01 : BitVec 5) = 0x01 := by decide

theorem witness_sercan : Inv State.reset ∧ (List.replicate 8 (0 : Byte)).length ≤ 8 ∧
    1 ≤ (0x020 : BitVec 11).toNat / 2 ^ State.reset.params.sidW.bits ∧
    (0x09F : BitVec 11).toNat / 2 ^ State.reset.params.sidW.bits ≤ 4 ∧
    ¬(0x0A0 : BitVec 11).toNat / 2 ^ State.reset.params.sidW.bits ≤ 4 :=
  ⟨inv_holding rfl, by decide, by decide, by decide, by decide⟩

theorem witness_unclassified : Inv (presented (.canRx ⟨.std 0x01F, []⟩)) ∧
    ¬1 ≤ (0x01F : BitVec 11).toNat / 2 ^ panels.params.sidW.bits ∧
    0x02 ≤ (0x02000000 : BitVec 29).toNat / 2 ^ 24 ∧ (0x1AFFFFFF : BitVec 29).toNat / 2 ^ 24 ≤ 0x1A ∧
    (0xFE : Byte) ≠ 0xFF ∧ 0x07FF < (0xFE : Byte).toNat * 256 + (0xFF : Byte).toNat :=
  ⟨⟨rfl, fun c => by cases c <;> decide⟩, by decide, by decide, by decide, by decide, by decide⟩

theorem witness_only_dropped : exec (.sercan 0x0A1 []) State.reset =
      .next { State.reset with cntUnknown := 1, result := some (.s2c .dropped) } ∧
    State.cntUnknown { State.reset with cntUnknown := 1, result := some (.s2c .dropped) } ≠
      State.reset.cntUnknown := ⟨rfl, by decide⟩

theorem witness_transmit_result :
    exec (.sercan 0x021 []) { State.reset with txOk := true } =
      .next { State.reset with
        txOk := true, canTx := [⟨.std 0x021, []⟩], result := some (.s2c (.sent true)) } ∧
    exec (.sercan 0x021 []) { State.reset with txOk := false } =
      .next { State.reset with
        txOk := false, canTx := [⟨.std 0x021, []⟩], result := some (.s2c (.sent false)) } := ⟨rfl, rfl⟩

end Sys2Proof.Tests
end

section
/-! PROOFS. The state of the block: what one step may change, said once (`Moves`) for every step, and what
a stateless operation reads (`AnswersAlike`); the obligations about reset, the invariant, the counters, the
streams and the operations without state follow from these. -/

namespace Sys2Proof.StateProofs

open Sys2Proof.Machine Sys2Proof.Safety

/-! ### Which instruction a step runs -/

theorem step_of_decode_ok {s : State} {r : Request} {rest : List Request} {i : Instr}
    (hp : s.pending = r :: rest) (hd : decode s.params r.txn = .ok i) :
    step s = exec i (s.take r rest) := by
  simp [step, hp, hd]

theorem decodeByte_zero : decodeByte 0 = .delim := rfl

theorem decodeByte_of_ne_zero {b : Byte} (hb : b ≠ 0) : decodeByte b = .decPush b := if_neg hb

/-- Every byte of the stream is a row of the table: the delimiter or data (R53). -/
theorem decode_serRx (pr : Params) (b : Byte) : decode pr (.serRx b) = .ok (decodeByte b) := by
  refine (decode_eq_ok_iff pr _ _).mpr ⟨rfl, ?_⟩
  by_cases hb : b = 0
  · rw [hb, decodeByte_zero]
    rfl
  · rw [decodeByte_of_ne_zero hb]
    rfl

theorem exec_delim_eq_decPush_zero (s : State) : exec .delim s = exec (.decPush 0) s := by
  simp [exec, execDelim, execDecPush]

theorem exec_decodeByte (b : Byte) (s : State) : exec (decodeByte b) s = exec (.decPush b) s := by
  by_cases hb : b = 0
  · rw [hb, decodeByte_zero, exec_delim_eq_decPush_zero]
  · rw [decodeByte_of_ne_zero hb]

/-- A delimiter empties the buffer, whatever it held (R74, R75). -/
@[simp] theorem pushDelimiter_rxBuf (s : State) : (pushDelimiter s).rxBuf = [] := by
  rcases pushDelimiter_cases s with ⟨-, e⟩ | ⟨c, -, -, e⟩ | ⟨p, -, -, e⟩ <;> simp [e]

/-- Settles O4. -/
theorem stepRunsDecodedInstruction : Obligations.StepRunsDecodedInstruction :=
  fun _ _ _ _ hp hd => step_of_decode_ok hp hd

/-- Settles O23: `DELIM` and `DEC.PUSH 0x00` run the same meaning, and the decoder reads a byte of the stream
as one of the two. -/
theorem serialByteIsPushed : Obligations.SerialByteIsPushed := by
  refine ⟨fun s => ⟨pushDelimiter s, rfl, ?_, ?_⟩, fun s b pt ok rest hp => ?_⟩
  · exact (exec_delim_eq_decPush_zero s).symm
  · simp [State.rxLen]
  · rw [step_of_decode_ok hp (decode_serRx s.params b), exec_decodeByte]
    rfl

/-! ### Reset -/

@[simp] theorem resetWith_count (pr : Params) (c : Counter) : (State.resetWith pr).count c = 0 := by
  cases c <;> rfl

/-- Settles O9. -/
theorem resetValues : Obligations.ResetValues := by
  rintro s (rfl | ⟨pr, rfl⟩)
  · exact ⟨rfl, rfl, rfl, rfl, rfl⟩
  · exact ⟨rfl, rfl, rfl, rfl, rfl⟩

/-- Settles O11: the buffer is empty, and 0 is below every power of two. -/
theorem resetMeetsInvariant : Obligations.ResetMeetsInvariant :=
  fun pr => ⟨Memory.wf_nil, fun c => by simp⟩

/-! ### What one step may change -/

/-- What lies between a state `s` and the state `t` that a meaning leaves: parameters and requests stay, the
output streams grow at their end, the buffer stays in its canonical form (R24), and a counter stays, counts one
event (R14) or, where `cleared` holds, is 0 again (R170). -/
structure Moves (cleared : Prop) (s t : State) : Prop where
  params : t.params = s.params
  pending : t.pending = s.pending
  serTx : ∃ f, t.serTx = s.serTx ++ f
  canTx : ∃ ms, t.canTx = s.canTx ++ ms
  rxBuf_wf : s.rxBuf.wf = true → t.rxBuf.wf = true
  count : ∀ c, t.count c = s.count c ∨ t.count c = satInc s.params.cntW (s.count c) ∨
    (cleared ∧ t.count c = 0)

namespace Moves

variable {cleared cleared' : Prop} {s t : State}

theorem mono (hm : Moves cleared s t) (himp : cleared → cleared') : Moves cleared' s t :=
  { hm with count := fun c => (hm.count c).imp_right (Or.imp_right (And.imp_left himp)) }

theorem refl (cleared : Prop) (s : State) : Moves cleared s s where
  params := rfl
  pending := rfl
  serTx := ⟨[], by simp⟩
  canTx := ⟨[], by simp⟩
  rxBuf_wf := id
  count _ := .inl rfl

theorem respondNone (hm : Moves cleared s t) : Moves cleared s t.respondNone :=
  { hm with count := fun c => by simpa using hm.count c }

theorem respond (hm : Moves cleared s t) (r : Result) : Moves cleared s (t.respond r) :=
  { hm with count := fun c => by simpa using hm.count c }

theorem emit (hm : Moves cleared s t) (f : Bytes) : Moves cleared s (t.emit f) :=
  { hm with
    serTx := by
      obtain ⟨f', hf'⟩ := hm.serTx
      exact ⟨f' ++ f, by simp [hf']⟩
    count := fun c => by simpa using hm.count c }

theorem transmit (hm : Moves cleared s t) (m : CanMsg) : Moves cleared s (t.transmit m) :=
  { hm with
    canTx := by
      obtain ⟨ms, hms⟩ := hm.canTx
      exact ⟨ms ++ [m], by simp [hms]⟩
    count := fun c => by simpa using hm.count c }

theorem setRx (hm : Moves cleared s t) {m : Memory} (hwf : s.rxBuf.wf = true → m.wf = true) :
    Moves cleared s (t.setRx m) :=
  { hm with
    rxBuf_wf := hwf
    count := fun c => by simpa using hm.count c }

/-- An increment is the one event that a counter counts, so no other stands before it. -/
theorem bump (hm : Moves cleared s t) (hcount : ∀ c, t.count c = s.count c) (c : Counter) :
    Moves cleared s (t.bump c) where
  params := by simpa using hm.params
  pending := by simpa using hm.pending
  serTx := by simpa using hm.serTx
  canTx := by simpa using hm.canTx
  rxBuf_wf := by simpa using hm.rxBuf_wf
  count d := by
    rw [State.bump_count, hm.params, hcount]
    split
    · exact .inr (.inl rfl)
    · exact .inl rfl

end Moves

section

variable (cleared : Prop) (s : State)

theorem takeDrop_moves (c : DropCause) : Moves cleared s (takeDrop c s) :=
  (((Moves.refl cleared s).setRx fun _ => Memory.wf_nil).bump (by simp) c.counter).respond _

theorem dropUnknown_moves (r : Result) : Moves cleared s (dropUnknown r s) :=
  ((Moves.refl cleared s).bump (fun _ => rfl) .unknown).respond r

/-- A data byte is not 0, so storing it keeps the canonical form while there is room (R72, R73). -/
theorem pushData_moves {b : Byte} (hb : b ≠ 0) : Moves cleared s (pushData b s) := by
  rcases pushData_cases b s with ⟨hroom, e⟩ | ⟨-, e⟩ <;> rw [e]
  · exact ((Moves.refl cleared s).setRx fun hwf => Memory.wf_store hwf hroom hb).respond _
  · exact takeDrop_moves cleared s .overflow

theorem pushDelimiter_moves : Moves cleared s (pushDelimiter s) := by
  have hempty : Moves cleared s (s.setRx []) := (Moves.refl cleared s).setRx fun _ => Memory.wf_nil
  rcases pushDelimiter_cases s with ⟨-, e⟩ | ⟨c, -, -, e⟩ | ⟨p, -, -, e⟩ <;> rw [e]
  · exact hempty.respond _
  · exact takeDrop_moves cleared s c
  · exact hempty.respond _

end

/-- Only `RST` clears a counter. -/
theorem exec_moves {i : Instr} {s t : State} (h : exec i s = .next t) : Moves (i = .rst) s t := by
  rcases exec_cases i s t h with
    ⟨hi, rfl⟩ | ⟨f, r, rfl⟩ | ⟨m, r, rfl⟩ | ⟨b, hb, rfl⟩ | rfl | rfl | rfl
  · exact
      { Moves.refl (i = .rst) s with
        rxBuf_wf := fun _ => Memory.wf_nil
        count := fun c => .inr (.inr ⟨hi, by cases c <;> rfl⟩) }
  · exact ((Moves.refl _ s).emit f).respond r
  · exact ((Moves.refl _ s).transmit m).respond r
  · exact pushData_moves _ s hb
  · exact pushDelimiter_moves _ s
  · exact dropUnknown_moves _ s _
  · exact dropUnknown_moves _ s _

theorem takeRejected_moves {e : Reject} {s t : State} (h : takeRejected e s = .next t) :
    Moves False s t := by
  rcases takeRejected_cases e s with ⟨-, he⟩ | ⟨sel, -, he⟩ | he | he <;> rw [he] at h <;> cases h
  · exact (Moves.refl _ s).respond _
  · exact dropUnknown_moves _ s _
  · exact dropUnknown_moves _ s _

/-- The state whose next request, if there is one, stands on the ports (R31): what a step's meaning runs on. -/
def sampled (s : State) : State :=
  match s.pending with
  | [] => s
  | r :: rest => s.take r rest

theorem sampled_of_nil {s : State} (hp : s.pending = []) : sampled s = s := by simp [sampled, hp]

theorem sampled_of_cons {s : State} {r : Request} {rest : List Request} (hp : s.pending = r :: rest) :
    sampled s = s.take r rest := by simp [sampled, hp]

/-- Taking a request changes the side inputs and the list of requests only. -/
@[simp] theorem sampled_fields (s : State) :
    (sampled s).params = s.params ∧ (sampled s).pending = s.pending.tail ∧
    (sampled s).serTx = s.serTx ∧ (sampled s).canTx = s.canTx ∧ (sampled s).rxBuf = s.rxBuf ∧
    ∀ c, (sampled s).count c = s.count c := by
  cases hp : s.pending with
  | nil => simp [sampled_of_nil hp, hp]
  | cons r rest => simp [sampled_of_cons hp]

/-- The request that a step takes decodes to `RST`. -/
def RstPresented (s : State) : Prop :=
  ∃ r rest, s.pending = r :: rest ∧ decode s.params r.txn = .ok .rst

/-- Everything a step may change, from the state with its request taken. -/
theorem step_moves {s t : State} (h : step s = .next t) : Moves (RstPresented s) (sampled s) t := by
  rcases step_cases s with ⟨hp, e⟩ | ⟨r, rest, i, hp, hd, e⟩ | ⟨r, rest, x, hp, -, e⟩ <;> rw [e] at h
  · cases h
    rw [sampled_of_nil hp]
    exact (Moves.refl _ s).respondNone
  · rw [sampled_of_cons hp]
    exact (exec_moves h).mono fun hi => ⟨r, rest, hp, hi ▸ hd⟩
  · rw [sampled_of_cons hp]
    exact (takeRejected_moves h).mono False.elim

/-! ### The invariant, the counters and the streams -/

/-- Settles O12: the buffer's form is kept by every move, and a counter that stays, counts with saturation or
is cleared stays below 2^`CNT_W`. -/
theorem stepKeepsInvariant : Obligations.StepKeepsInvariant := by
  rintro s t ⟨hwf, hlt⟩ hstep
  have hm := step_moves hstep
  obtain ⟨hparams, -, -, -, hbuf, hcount⟩ := sampled_fields s
  refine ⟨hm.rxBuf_wf (hbuf ▸ hwf), fun c => ?_⟩
  have hc := hm.count c
  rw [hcount, hparams] at hc
  rw [hm.params, hparams]
  rcases hc with e | e | ⟨-, e⟩ <;> rw [e]
  · exact hlt c
  · exact satInc_lt (hlt c)
  · exact Nat.two_pow_pos _

/-- Settles O13: of the three movements of a counter only the clearing lowers it. -/
theorem countersFallOnlyByReset : Obligations.CountersFallOnlyByReset := by
  intro s t c hstep hfall
  obtain ⟨hparams, -, -, -, -, hcount⟩ := sampled_fields s
  have hc := (step_moves hstep).count c
  rw [hcount, hparams] at hc
  rcases hc with e | e | ⟨hrst, -⟩
  · omega
  · have := satInc_ge s.params.cntW (s.count c)
    omega
  · exact hrst

/-- Settles O14. -/
theorem stepOnlyAppendsToStreams : Obligations.StepOnlyAppendsToStreams := by
  intro s t hstep
  obtain ⟨hparams, hpending, hser, hcan, -, -⟩ := sampled_fields s
  have hm := step_moves hstep
  exact ⟨hm.params.trans hparams, hm.pending.trans hpending, hser ▸ hm.serTx, hcan ▸ hm.canTx⟩

/-! ### Operations without state -/

/-- The states between which the operation `i` cannot tell: the same parameters and, for `RT.ROUTE`, the same
`pt_present` (R15, R16). -/
structure SameInputs (i : Instr) (s s' : State) : Prop where
  params : s'.params = s.params
  ptPresent : ∀ u d, i = .rtRoute u d → s'.ptPresent = s.ptPresent

/-- In every state that looks like `s` to `i`, `i` emits `f` and returns `r`, and does nothing else. -/
def AnswersAlike (i : Instr) (s : State) (f : Bytes) (r : Result) : Prop :=
  ∀ s', SameInputs i s s' → exec i s' = .next ((s'.emit f).respond r)

theorem ptLookup_congr {s s' : State} (h : s'.ptPresent = s.ptPresent) : s'.ptLookup = s.ptLookup := by
  funext sid
  simp [State.ptLookup, h]

/-- An operation that only responds, by what it reads of `SameInputs`, emits nothing. -/
theorem answersAlike_of_respond {i : Instr} {s : State} {r : Result}
    (h : ∀ s', SameInputs i s s' → exec i s' = .next (s'.respond r)) : AnswersAlike i s [] r :=
  fun s' hs => (h s' hs).trans (congrArg _ (s'.respond_eq_emit_nil r))

/-- A refusable operation answers its value or its refusal, in any state the same (R155). -/
theorem respondExcept_eq_respond {α : Type} (wrap : α → Result) (x : Except RefuseCause α) :
    ∃ r, ∀ s : State, s.respondExcept wrap x = s.respond r := by
  cases x with
  | ok v => exact ⟨_, fun _ => rfl⟩
  | error c => exact ⟨_, fun _ => rfl⟩

theorem encFrame_answersAlike (p : Bytes) (s : State) : ∃ f r, AnswersAlike (.encFrame p) s f r := by
  cases h : encodeFrame p with
  | ok f => exact ⟨f, .encOk, fun s' _ => by simp [exec, execEncFrame, h]⟩
  | error c => exact ⟨[], .refuse c, answersAlike_of_respond fun s' _ => by simp [exec, execEncFrame, h]⟩

/-- A refusable operation whose value is computed alike in every state that looks like `s` to it. -/
theorem refusable_answersAlike {α : Type} {i : Instr} {s : State} (wrap : α → Result)
    (x : Except RefuseCause α)
    (h : ∀ s', SameInputs i s s' → exec i s' = .next (s'.respondExcept wrap x)) :
    ∃ r, AnswersAlike i s [] r := by
  obtain ⟨r, hr⟩ := respondExcept_eq_respond wrap x
  exact ⟨r, answersAlike_of_respond fun s' hs => (h s' hs).trans (congrArg _ (hr s'))⟩

/-- The nine translator operations emit nothing (R16). -/
theorem translator_answersAlike {i : Instr} (hi : stateless i = true) (henc : ∀ p, i ≠ .encFrame p)
    (s : State) : ∃ r, AnswersAlike i s [] r := by
  cases i
  case encFrame p => exact absurd rfl (henc p)
  case stdPack opc sid =>
    refine refusable_answersAlike .stdId (stdPack s.params.sidW opc sid) fun s' hs => ?_
    rw [← hs.params]
    rfl
  case extPack tag arg => exact refusable_answersAlike .extId (extPack tag arg) fun _ _ => rfl
  case serJoin m => exact refusable_answersAlike .payload (serJoin m) fun _ _ => rfl
  case hostBuild sub args => exact refusable_answersAlike .payload (hostBuild sub args) fun _ _ => rfl
  case stdUnpack id =>
    refine ⟨.stdFields (stdUnpack s.params.sidW id), answersAlike_of_respond fun s' hs => ?_⟩
    rw [← hs.params]
    rfl
  case rtRoute u data =>
    refine ⟨.route (rtRoute s.ptLookup u data), answersAlike_of_respond fun s' hs => ?_⟩
    rw [← ptLookup_congr (hs.ptPresent u data rfl)]
    rfl
  case extUnpack | serSplit | hostClassify => exact ⟨_, answersAlike_of_respond fun _ _ => rfl⟩
  all_goals cases hi

/-- What a stateless operation does: it emits bytes, which only `ENC.FRAME` does, and returns a result. -/
theorem stateless_answersAlike {i : Instr} (hi : stateless i = true) (s : State) :
    ∃ f r, ((∀ p, i ≠ .encFrame p) → f = []) ∧ AnswersAlike i s f r := by
  by_cases henc : ∃ p, i = .encFrame p
  · obtain ⟨p, rfl⟩ := henc
    obtain ⟨f, r, hf⟩ := encFrame_answersAlike p s
    exact ⟨f, r, fun h => absurd rfl (h p), hf⟩
  · obtain ⟨r, hr⟩ := translator_answersAlike hi (not_exists.mp henc) s
    exact ⟨[], r, fun _ => rfl, hr⟩

/-- Settles O35. -/
theorem statelessDependsOnOperandsAlone : Obligations.StatelessDependsOnOperandsAlone := by
  intro s t i hi hexec
  obtain ⟨f, r, hf, halike⟩ := stateless_answersAlike hi s
  have ht := halike s ⟨rfl, fun _ _ _ => rfl⟩
  rw [hexec] at ht
  cases ht
  refine ⟨f, rfl, hf, fun s' t' hparams hpt hexec' => ?_⟩
  rw [halike s' ⟨hparams, hpt⟩] at hexec'
  cases hexec'
  rfl

end Sys2Proof.StateProofs
end

section
/-! PROOFS. The decoder's memory and the order of requests: a step stops on nothing but a request that is no
value of the ports, and `DEC.PUSH` neither sees nor touches what a stateless operation writes. -/

namespace Sys2Proof.MemoryProofs

open Sys2Proof.Machine Sys2Proof.Safety Sys2Proof.StateProofs

/-! ### Totality -/

theorem step_of_pending_nil {s : State} (hp : s.pending = []) : step s = .next s.respondNone := by
  simp [step, hp]

/-- No meaning faults or refuses (R76, R187). All but `ENC.FRAME` answer `.next` outright; it does so on its
acceptance and on its refusal (R62). -/
theorem exec_total (i : Instr) (s : State) : ∃ t, exec i s = .next t := by
  cases i
  case encFrame p =>
    simp only [exec, execEncFrame]
    split
    · exact ⟨_, rfl⟩
    · exact ⟨_, rfl⟩
  all_goals exact ⟨_, rfl⟩

/-- A rejected request has an effect, unless it is no value of the ports (log entry 9). -/
theorem takeRejected_total {e : Reject} (he : e ≠ .illFormed) (s : State) :
    ∃ t, takeRejected e s = .next t := by
  rcases takeRejected_cases e s with ⟨hill, -⟩ | ⟨_, -, h⟩ | h | h
  · exact absurd hill he
  all_goals exact ⟨_, h⟩

/-- Settles O5. -/
theorem stepWithoutRequestWaits : Obligations.StepWithoutRequestWaits :=
  fun _ hp => step_of_pending_nil hp

/-- Settles O7: a step waits, runs a meaning or takes a rejection, and each of the three is total. -/
theorem blockNeverHalts : Obligations.BlockNeverHalts := by
  intro s hok
  rcases step_cases s with ⟨-, h⟩ | ⟨r, rest, i, -, -, h⟩ | ⟨r, rest, e, hp, hd, h⟩
  · exact ⟨_, h⟩
  · exact h ▸ exec_total i _
  · have he : e ≠ .illFormed := fun hill => hok r (by simp [hp]) (hill ▸ hd)
    exact h ▸ takeRejected_total he _

/-! ### No meaning writes the side inputs -/

@[simp] theorem pushData_ptPresent (b : Byte) (s : State) : (pushData b s).ptPresent = s.ptPresent := by
  rcases pushData_cases b s with ⟨-, e⟩ | ⟨-, e⟩ <;> simp [e]

@[simp] theorem pushDelimiter_ptPresent (s : State) : (pushDelimiter s).ptPresent = s.ptPresent := by
  rcases pushDelimiter_cases s with ⟨-, e⟩ | ⟨c, -, -, e⟩ | ⟨p, -, -, e⟩ <;> simp [e]

theorem exec_ptPresent {i : Instr} {s t : State} (h : exec i s = .next t) : t.ptPresent = s.ptPresent := by
  rcases exec_cases i s t h with
    ⟨-, rfl⟩ | ⟨f, r, rfl⟩ | ⟨m, r, rfl⟩ | ⟨b, -, rfl⟩ | rfl | rfl | rfl <;> simp

/-- A stateless operation cannot tell whether another operation has run before it (R34). -/
theorem sameInputs_of_exec {j : Instr} {s t : State} (h : exec j s = .next t) (i : Instr) :
    SameInputs i s t :=
  ⟨(exec_moves h).params, fun _ _ _ => exec_ptPresent h⟩

/-! ### `DEC.PUSH` after bytes emitted and a result -/

/-- A drop writes its own result and leaves `ser_tx`, so it commutes with an emission. -/
theorem takeDrop_emit_respond (c : DropCause) (s : State) (f : Bytes) (r : Result) :
    takeDrop c ((s.emit f).respond r) = (takeDrop c s).emit f := by
  cases c <;> rfl

theorem pushData_emit_respond (b : Byte) (s : State) (f : Bytes) (r : Result) :
    pushData b ((s.emit f).respond r) = (pushData b s).emit f := by
  by_cases hroom : s.rxLen < Config.rxCap
  · simp only [pushData, State.respond_rxLen, State.emit_rxLen, hroom, if_true]
    rfl
  · simp only [pushData, State.respond_rxLen, State.emit_rxLen, hroom, if_false]
    exact takeDrop_emit_respond .overflow s f r

theorem pushDelimiter_emit_respond (s : State) (f : Bytes) (r : Result) :
    pushDelimiter ((s.emit f).respond r) = (pushDelimiter s).emit f := by
  by_cases hempty : s.rxLen = 0
  · simp only [pushDelimiter, State.respond_rxLen, State.emit_rxLen, hempty, if_true]
    rfl
  · simp only [pushDelimiter, State.respond_rxLen, State.emit_rxLen, hempty, if_false, State.respond_params,
      State.emit_params, State.respond_rxBuf, State.emit_rxBuf]
    cases check s.params.minBlock s.rxBuf with
    | bad c => exact takeDrop_emit_respond c s f r
    | good p => rfl

/-- What stood in `ser_tx` and in the result has no part in `DEC.PUSH`: the emission carries over, and the
result is overwritten. -/
theorem decPush_emit_respond {x : Byte} {s t : State} (h : exec (.decPush x) s = .next t) (f : Bytes)
    (r : Result) : exec (.decPush x) ((s.emit f).respond r) = .next (t.emit f) := by
  simp only [exec, execDecPush] at h ⊢
  by_cases hx : x = 0
  · rw [if_pos hx] at h ⊢
    cases h
    rw [pushDelimiter_emit_respond]
  · rw [if_neg hx] at h ⊢
    cases h
    rw [pushData_emit_respond]

/-- Settles O34: in either order the states left are the one after `DEC.PUSH` alone with the operation's bytes
emitted, and differ in the result that was written last. -/
theorem statelessCommutesWithPush : Obligations.StatelessCommutesWithPush := by
  intro s a b c d i x hi ha hb hc hd
  obtain ⟨f, r, -, halike⟩ := stateless_answersAlike hi s
  have ha' : exec i s = .next ((s.emit f).respond r) := halike s ⟨rfl, fun _ _ _ => rfl⟩
  cases ha.symm.trans ha'
  cases hb.symm.trans (decPush_emit_respond hc f r)
  cases hd.symm.trans (halike c (sameInputs_of_exec hc i))
  exact ⟨rfl, rfl, rfl⟩

end Sys2Proof.MemoryProofs
end

section
/-! PROOFS. The encodings: an id is the sum of its fields and the fields are read back from it, the decoder
and the encoder invert each other on every port, what the decoder rejects is refused or counted, and the
layout of the stuffed block. -/

namespace Sys2Proof.EncodingProofs

open Sys2Proof.Machine Sys2Proof.Safety Sys2Proof.StateProofs

/-! ### The fields of a standard id (R46, R92) -/

@[simp] theorem stdUnpack_sid_toNat (w : SidW) (id : BitVec Config.stdW) :
    (stdUnpack w id).sid.toNat = id.toNat % 2 ^ w.bits := by
  cases w with
  | five =>
    simp [stdUnpack, slice_eq, SidW.bits]
    omega
  | six => simp [stdUnpack, slice_eq, SidW.bits]

@[simp] theorem stdUnpack_opc_toNat (w : SidW) (id : BitVec Config.stdW) :
    (stdUnpack w id).opc.toNat = id.toNat / 2 ^ w.bits % 16 := by
  cases w <;> simp [stdUnpack, slice_eq, SidW.bits]

@[simp] theorem stdUnpack_rsv_toNat (w : SidW) (id : BitVec Config.stdW) :
    (stdUnpack w id).rsv.toNat = id.toNat / 2 ^ w.bits / 16 := by
  have hid := stdId_lt id
  cases w <;> simp [stdUnpack, slice_eq, SidW.bits] <;> omega

/-- The reserved bits stand above the opcode, so they are 0 exactly when the id without its short id is an
opcode. -/
theorem stdUnpack_runtime_iff_div (w : SidW) (id : BitVec Config.stdW) :
    (stdUnpack w id).cls = .runtime ↔ 1 ≤ id.toNat / 2 ^ w.bits ∧ id.toNat / 2 ^ w.bits ≤ 4 := by
  have hrsv : (stdUnpack w id).rsv = 0 ↔ id.toNat / 2 ^ w.bits / 16 = 0 := by
    rw [← BitVec.toNat_inj, stdUnpack_rsv_toNat]
    rfl
  rw [stdUnpack_runtime_iff, hrsv, stdUnpack_opc_toNat]
  omega

/-- A packed id unpacks to its fields (R93). -/
theorem stdUnpack_stdIdOf {w : SidW} {opc : BitVec Config.opcW} {sid : BitVec 6}
    (hopc : 1 ≤ opc.toNat ∧ opc.toNat ≤ 4) (hsid : sid.toNat < 2 ^ w.bits) :
    stdUnpack w (stdIdOf w opc sid.toNat) = ⟨.runtime, opc, sid, 0⟩ := by
  have hid := stdIdOf_toNat w opc sid.toNat hsid
  generalize stdIdOf w opc sid.toNat = id at hid
  have hdiv : id.toNat / 2 ^ w.bits = opc.toNat := by
    rw [hid, Nat.mul_comm, Nat.mul_add_div (Nat.two_pow_pos _), Nat.div_eq_of_lt hsid, Nat.add_zero]
  have hmod : id.toNat % 2 ^ w.bits = sid.toNat := by
    rw [hid, Nat.mul_comm, Nat.mul_add_mod, Nat.mod_eq_of_lt hsid]
  have hcls : (stdUnpack w id).cls = .runtime := (stdUnpack_runtime_iff_div w id).mpr (hdiv ▸ hopc)
  have hrsv : (stdUnpack w id).rsv = 0 := ((stdUnpack_runtime_iff w id).mp hcls).1
  have hopc' : (stdUnpack w id).opc = opc :=
    BitVec.eq_of_toNat_eq (by rw [stdUnpack_opc_toNat, hdiv, Nat.mod_eq_of_lt (opc_lt opc)])
  have hsid' : (stdUnpack w id).sid = sid :=
    BitVec.eq_of_toNat_eq ((stdUnpack_sid_toNat w id).trans hmod)
  rw [← hcls, ← hrsv, ← hopc', ← hsid']

/-- An id of a known class is packed from its fields (R93). -/
theorem stdIdOf_stdUnpack {w : SidW} {id : BitVec Config.stdW} (h : (stdUnpack w id).cls = .runtime) :
    stdIdOf w (stdUnpack w id).opc (stdUnpack w id).sid.toNat = id := by
  obtain ⟨-, hle⟩ := (stdUnpack_runtime_iff_div w id).mp h
  apply BitVec.eq_of_toNat_eq
  rw [stdIdOf_toNat _ _ _ (by simpa using Nat.mod_lt _ (Nat.two_pow_pos _)), stdUnpack_opc_toNat,
    stdUnpack_sid_toNat, Nat.mod_eq_of_lt (by omega), Nat.div_add_mod']

/-! ### The fields of an extended id (R47, R95) -/

@[simp] theorem extUnpack_tag_toNat (id : BitVec Config.extW) :
    (extUnpack id).tag.toNat = id.toNat / 2 ^ 24 := by
  have hid := extId_lt id
  simp [extUnpack, slice_eq]
  omega

@[simp] theorem extUnpack_arg_toNat (id : BitVec Config.extW) :
    (extUnpack id).arg.toNat = id.toNat % 2 ^ 24 := by
  simp [extUnpack, slice_eq]

theorem extUnpack_kind (id : BitVec Config.extW) : (extUnpack id).kind = tagKind (extUnpack id).tag := rfl

/-- A packed id unpacks to its fields (R96). -/
theorem extUnpack_extIdOf (tag : BitVec Config.tagW) (arg : BitVec Config.argW) :
    extUnpack (extIdOf tag arg) = ⟨tagKind tag, tag, arg⟩ := by
  have harg := arg_lt arg
  have hid := extIdOf_toNat tag arg
  generalize extIdOf tag arg = id at hid
  have htag' : (extUnpack id).tag = tag :=
    BitVec.eq_of_toNat_eq (by rw [extUnpack_tag_toNat]; omega)
  have harg' : (extUnpack id).arg = arg :=
    BitVec.eq_of_toNat_eq (by rw [extUnpack_arg_toNat]; omega)
  rw [← htag', ← harg', ← extUnpack_kind]

/-- Every extended id is packed from its fields (R96). -/
theorem extIdOf_extUnpack (id : BitVec Config.extW) :
    extIdOf (extUnpack id).tag (extUnpack id).arg = id := by
  apply BitVec.eq_of_toNat_eq
  rw [extIdOf_toNat, extUnpack_tag_toNat, extUnpack_arg_toNat]
  omega

/-! ### The parts of a payload (R44, R45, R98) -/

theorem serSplit_serHostPayload (sub : Byte) (args : Bytes) :
    serSplit (serHostPayload sub args) = .host sub args := rfl

/-- The high byte of an 11-bit id is at most 7, so no CAN payload is taken for a host command. -/
theorem serSplit_serCanPayload (id : BitVec Config.stdW) {data : Bytes} (hdata : data.length ≤ 8) :
    serSplit (serCanPayload id data) = .can id data := by
  have hid := stdId_lt id
  have hhi : BitVec.ofNat 8 (id.toNat / 256) ≠ Config.hostSentinel := by
    intro e
    have he := congrArg BitVec.toNat e
    simp [Config.hostSentinel] at he
    omega
  have hid16 : id16 (BitVec.ofNat 8 (id.toNat / 256)) (BitVec.ofNat 8 (id.toNat % 256)) = id.toNat := by
    simp [id16_eq]
    omega
  have hres : ¬id.toNat > Config.serCanMax := by
    simp [Config.serCanMax]
    omega
  have hlen : ¬data.length > Config.canDataMax := by simpa [Config.canDataMax] using hdata
  have hslice : BitVec.ofNat Config.stdW (slice id.toNat (Config.stdW - 1) 0) = id := by
    apply BitVec.eq_of_toNat_eq
    simp [slice_eq, hid]
  simp only [serCanPayload, idBytes_eq, List.cons_append, List.nil_append, serSplit, if_neg hhi, hid16,
    if_neg hres, if_neg hlen, hslice]

theorem eq_serHostPayload_of_serSplit {p : Bytes} {sub : Byte} {args : Bytes}
    (h : serSplit p = .host sub args) : p = serHostPayload sub args := by
  unfold serSplit at h
  split at h
  · cases h
  · cases h
  · split_ifs at h with h0
    cases h
    rw [h0]
    rfl

theorem eq_serCanPayload_of_serSplit {p : Bytes} {id : BitVec Config.stdW} {data : Bytes}
    (h : serSplit p = .can id data) : p = serCanPayload id data := by
  unfold serSplit at h
  split at h
  · cases h
  · cases h
  · rename_i b0 b1 rest
    split_ifs at h with h0 h1 h2
    cases h
    have hhi := b0.isLt
    have hlo := b1.isLt
    simp only [id16_eq, Config.serCanMax, not_lt] at h1
    have hid : (BitVec.ofNat Config.stdW (slice (id16 b0 b1) (Config.stdW - 1) 0)).toNat =
        b0.toNat * 256 + b1.toNat := by
      simp [slice_eq, id16_eq]
      omega
    have hb0 : BitVec.ofNat 8 ((b0.toNat * 256 + b1.toNat) / 256) = b0 :=
      BitVec.eq_of_toNat_eq (by simp; omega)
    have hb1 : BitVec.ofNat 8 ((b0.toNat * 256 + b1.toNat) % 256) = b1 :=
      BitVec.eq_of_toNat_eq (by simp; omega)
    rw [serCanPayload, idBytes_eq, hid, hb0, hb1]
    rfl

/-! ### The rows of the two kinds of CAN message -/

/-- The row of a runtime opcode (R50). -/
def runtimeInstr (opc : BitVec Config.opcW) (sid : BitVec 6) (data : Bytes) : Instr :=
  if opc = 1 then .led sid data
  else if opc = 2 then .adc sid data
  else if opc = 3 then .switch sid data
  else .quadenc sid data

theorem decodeStd_of_runtime {w : SidW} {id : BitVec Config.stdW} (h : (stdUnpack w id).cls = .runtime)
    (data : Bytes) :
    decodeStd w id data = .ok (runtimeInstr (stdUnpack w id).opc (stdUnpack w id).sid data) := by
  simp only [decodeStd, h, runtimeInstr]
  split_ifs <;> rfl

theorem decodeStd_of_unknown {w : SidW} {id : BitVec Config.stdW} (h : (stdUnpack w id).cls = .unknown)
    (data : Bytes) : decodeStd w id data = .error (.stdUnknown (stdUnpack w id)) := by
  simp only [decodeStd, h]

theorem encode_runtimeInstr (pr : Params) {opc : BitVec Config.opcW} (hopc : 1 ≤ opc.toNat ∧ opc.toNat ≤ 4)
    (sid : BitVec 6) (data : Bytes) :
    encode pr (runtimeInstr opc sid data) = .canRx ⟨.std (stdIdOf pr.sidW opc sid.toNat), data⟩ := by
  have hcases : opc = 1 ∨ opc = 2 ∨ opc = 3 ∨ opc = 4 := by
    revert opc
    decide
  rcases hcases with rfl | rfl | rfl | rfl <;> rfl

/-- The tag of a known message kind (R51); the kind unknown stands for the reserved tags, and gets one of
them. -/
def kindTag : ExtKind → BitVec Config.tagW
  | .detect1 => 0x1F
  | .detect2 => 0x1E
  | .detect3 => 0x1D
  | .detect4 => 0x1C
  | .ackId => 0x1B
  | .broadcast => 0x00
  | .firmware => 0x01
  | .unknown => 0x02

/-- A known kind has one tag only. -/
theorem kindTag_tagKind {tag : BitVec Config.tagW} (h : tagKind tag ≠ .unknown) :
    kindTag (tagKind tag) = tag := by
  revert tag
  decide

theorem decodeExt_of_unknown {id : BitVec Config.extW} (h : (extUnpack id).kind = .unknown) (data : Bytes) :
    decodeExt id data = .error (.extUnknown (extUnpack id)) := by
  simp only [decodeExt, h]

/-- Each row of a tag is encoded with that tag, so the id that was read is packed again. -/
theorem encode_of_decodeExt (pr : Params) {id : BitVec Config.extW} {data : Bytes} {i : Instr}
    (h : decodeExt id data = .ok i) : encode pr i = .canRx ⟨.ext id, data⟩ := by
  have hknown : tagKind (extUnpack id).tag ≠ .unknown := by
    intro hu
    rw [decodeExt_of_unknown hu] at h
    cases h
  have htag := kindTag_tagKind hknown
  rw [← extUnpack_kind] at htag
  rw [← extIdOf_extUnpack id, ← htag]
  cases hk : (extUnpack id).kind
  case unknown => exact absurd hk hknown
  all_goals
    simp only [decodeExt, hk] at h
    cases h
    rfl

/-! ### The decoder reads what the encoder writes -/

section

variable {data : Bytes} (hdata : canDataOk data = true)

include hdata

theorem decodeCan_std (w : SidW) (id : BitVec Config.stdW) :
    decodeCan w ⟨.std id, data⟩ = decodeStd w id data := by
  simp [decodeCan, hdata]

theorem decodeCan_ext (w : SidW) (id : BitVec Config.extW) :
    decodeCan w ⟨.ext id, data⟩ = decodeExt id data := by
  simp [decodeCan, hdata]

end

theorem canDataOk_of_decodeCan {m : CanMsg} {w : SidW} {i : Instr} (h : decodeCan w m = .ok i) :
    canDataOk m.data = true := by
  cases hdata : canDataOk m.data with
  | true => rfl
  | false =>
    simp only [decodeCan, hdata] at h
    cases h

/-- The check of a runtime row is that of its short id and its data (R20, R46). -/
theorem decodeRaw_runtime (pr : Params) {opc : BitVec Config.opcW} {sid : BitVec 6} {data : Bytes}
    (hopc : 1 ≤ opc.toNat ∧ opc.toNat ≤ 4) (hwf : (sidFits pr.sidW sid && canDataOk data) = true) :
    decodeRaw pr (.canRx ⟨.std (stdIdOf pr.sidW opc sid.toNat), data⟩) = .ok (runtimeInstr opc sid data) := by
  obtain ⟨hsid, hdata⟩ := Bool.and_eq_true_iff.mp hwf
  have hu := stdUnpack_stdIdOf hopc ((sidFits_iff _ _).mp hsid)
  have hcls : (stdUnpack pr.sidW (stdIdOf pr.sidW opc sid.toNat)).cls = .runtime := by rw [hu]
  rw [decodeRaw, decodeCan_std hdata, decodeStd_of_runtime hcls, hu]

theorem decodeRaw_extended (pr : Params) (tag : BitVec Config.tagW) (arg : BitVec Config.argW) {data : Bytes}
    (hdata : canDataOk data = true) :
    decodeRaw pr (.canRx ⟨.ext (extIdOf tag arg), data⟩) = decodeExt (extIdOf tag arg) data := by
  rw [decodeRaw, decodeCan_ext hdata]

theorem decodePayload_serCanPayload (id : BitVec Config.stdW) {data : Bytes} (hdata : canDataOk data = true) :
    decodePayload (serCanPayload id data) = .ok (.sercan id data) := by
  rw [decodePayload, serSplit_serCanPayload id ((canDataOk_iff data).mp hdata)]

theorem decodePayload_serHostPayload {sub : Byte} (hsub : hostClassify sub = .hostUnknown) (args : Bytes) :
    decodePayload (serHostPayload sub args) = .ok (.serhost sub args) := by
  simp only [decodePayload, serSplit_serHostPayload, hsub]

/-- The encoder's transaction is read as the instruction, by the port it stands on: an operation by its
selector, a message by the fields of its id, a payload by its first two bytes. -/
theorem decodeRaw_encode (pr : Params) (i : Instr) (hwf : i.wellFormed pr = true) :
    decodeRaw pr (encode pr i) = .ok i := by
  cases i
  case led | adc | switch | quadenc => exact decodeRaw_runtime pr (by decide) hwf
  case detect1 | detect2 | detect3 | detect4 | ackId | broadcast | firmware =>
    rw [encode, decodeRaw_extended pr _ _ hwf, decodeExt, extUnpack_extIdOf]
    rfl
  case sercan id data => exact decodePayload_serCanPayload id hwf
  case serhost sub args => exact decodePayload_serHostPayload (eq_of_beq hwf) args
  all_goals rfl

/-- Settles O1: the raw reading is the instruction, and it passes the check by assumption. -/
theorem decodeOfEncode : Obligations.DecodeOfEncode :=
  fun pr i hwf => (decode_eq_ok_iff pr _ i).mpr ⟨decodeRaw_encode pr i hwf, hwf⟩

/-! ### The encoder writes what the decoder read -/

theorem encode_of_decodeStd {pr : Params} {id : BitVec Config.stdW} {data : Bytes} {i : Instr}
    (h : decodeStd pr.sidW id data = .ok i) : encode pr i = .canRx ⟨.std id, data⟩ := by
  cases hcls : (stdUnpack pr.sidW id).cls with
  | unknown =>
    rw [decodeStd_of_unknown hcls] at h
    cases h
  | runtime =>
    rw [decodeStd_of_runtime hcls] at h
    cases h
    obtain ⟨-, hopc⟩ := (stdUnpack_runtime_iff _ _).mp hcls
    rw [encode_runtimeInstr pr hopc, stdIdOf_stdUnpack hcls]

theorem encode_of_decodeCan {pr : Params} {m : CanMsg} {i : Instr} (h : decodeCan pr.sidW m = .ok i) :
    encode pr i = .canRx m := by
  have hdata := canDataOk_of_decodeCan h
  obtain ⟨id | id, data⟩ := m
  · exact encode_of_decodeStd (decodeCan_std hdata _ id ▸ h)
  · exact encode_of_decodeExt pr (decodeCan_ext hdata pr.sidW id ▸ h)

/-- The three sub-commands with a row of their own are encoded with their number, the others as they came. -/
theorem encode_of_decodePayload_host (pr : Params) {sub : Byte} {args : Bytes} {i : Instr}
    (h : decodePayload (serHostPayload sub args) = .ok i) : encode pr i = .payload (serHostPayload sub args) := by
  by_cases hsub : hostClassify sub = .hostUnknown
  · rw [decodePayload_serHostPayload hsub] at h
    cases h
    rfl
  · have hcases : sub = 0x01 ∨ sub = 0x02 ∨ sub = 0xFF := by
      rw [hostClassify_eq_unknown_iff] at hsub
      tauto
    rcases hcases with rfl | rfl | rfl <;> cases h <;> rfl

theorem encode_of_decodePayload (pr : Params) {p : Bytes} {i : Instr} (h : decodePayload p = .ok i) :
    encode pr i = .payload p := by
  cases hp : serSplit p with
  | can id data =>
    simp only [decodePayload, hp] at h
    cases h
    rw [eq_serCanPayload_of_serSplit hp]
    rfl
  | host sub args =>
    obtain rfl := eq_serHostPayload_of_serSplit hp
    exact encode_of_decodePayload_host pr h
  | unknown why =>
    simp only [decodePayload, hp] at h
    cases h

/-- Settles O2: one inversion of the decoder for each port. -/
theorem encodeOfDecodedArrival : Obligations.EncodeOfDecodedArrival := by
  intro pr i
  refine ⟨fun m h => ?_, fun p h => ?_, fun h => ?_⟩
  · exact encode_of_decodeCan ((decode_eq_ok_iff pr _ i).mp h).1
  · exact encode_of_decodePayload pr ((decode_eq_ok_iff pr _ i).mp h).1
  · rw [decode_serRx, decodeByte_zero] at h
    cases h
    rfl

/-! ### The words of the opcode table -/

/-- A word that stands for the transaction of an instruction decodes to it. -/
theorem decodeTableWord_of_encode {nbits w : Nat} {i : Instr} (hwf : i.wellFormed .standard = true)
    (ht : tableTransaction nbits w = some (encode .standard i)) : decodeTableWord nbits w = some i := by
  simp only [decodeTableWord, ht, decodeOfEncode .standard i hwf]

/-- Settles O3: each word stands for the encoder's transaction of its row (the reading of a word by its width
is log entry 7). -/
theorem tableWordsDecode : Obligations.TableWordsDecode :=
  ⟨decodeTableWord_of_encode rfl rfl, decodeTableWord_of_encode rfl rfl, decodeTableWord_of_encode rfl rfl,
    decodeTableWord_of_encode rfl rfl, decodeTableWord_of_encode rfl rfl⟩

/-! ### Requests that are no row of the table -/

theorem step_of_decodeRaw_error {s : State} {r : Request} {rest : List Request} {e : Reject}
    (hp : s.pending = r :: rest) (hd : decodeRaw s.params r.txn = .error e) :
    step s = takeRejected e (s.take r rest) := by
  simp [step, hp, decode, hd]

/-- The selectors above `RT.ROUTE` name no operation (R54, R56). -/
theorem decodeOp_reserved {sel : BitVec 4} (h : 0xD ≤ sel.toNat) (a : Operands) :
    decodeOp sel a = .error (.opReserved sel) := by
  have hlt := sel.isLt
  have hcases : sel.toNat = 0xD ∨ sel.toNat = 0xE ∨ sel.toNat = 0xF := by omega
  rcases hcases with hsel | hsel | hsel <;> simp only [decodeOp, hsel]

/-- Settles O6. -/
theorem reservedSelectorIsRefused : Obligations.ReservedSelectorIsRefused :=
  fun _ _ a _ _ _ hp hsel => step_of_decodeRaw_error hp (decodeOp_reserved hsel a)

/-- A drop on the request just taken, with the count in the words of R73, which the invariant allows. -/
theorem dropUnknown_take {s : State} (hinv : Inv s) (res : Result) (r : Request) (rest : List Request) :
    dropUnknown res (s.take r rest) =
      { s with
        pending := rest, ptPresent := r.ptPresent, txOk := r.txOk
        cntUnknown := counted s s.cntUnknown, result := some res } := by
  have hcount : satInc s.params.cntW s.cntUnknown = counted s s.cntUnknown := satInc_eq (hinv.2 .unknown)
  rw [← hcount]
  rfl

theorem decodeRaw_std_unknown (pr : Params) {id : BitVec Config.stdW} {data : Bytes} (hdata : data.length ≤ 8)
    (hid : ¬(1 ≤ id.toNat / 2 ^ pr.sidW.bits ∧ id.toNat / 2 ^ pr.sidW.bits ≤ 4)) :
    decodeRaw pr (.canRx ⟨.std id, data⟩) = .error (.stdUnknown (stdUnpack pr.sidW id)) := by
  have hcls : (stdUnpack pr.sidW id).cls = .unknown := by
    cases h : (stdUnpack pr.sidW id).cls with
    | unknown => rfl
    | runtime => exact absurd ((stdUnpack_runtime_iff_div _ _).mp h) hid
  rw [decodeRaw, decodeCan_std ((canDataOk_iff data).mpr hdata), decodeStd_of_unknown hcls]

theorem decodeRaw_ext_unknown (pr : Params) {id : BitVec Config.extW} {data : Bytes} (hdata : data.length ≤ 8)
    (hlo : 0x02 ≤ id.toNat / 2 ^ 24) (hhi : id.toNat / 2 ^ 24 ≤ 0x1A) :
    decodeRaw pr (.canRx ⟨.ext id, data⟩) = .error (.extUnknown (extUnpack id)) := by
  have hkind : (extUnpack id).kind = .unknown := by
    rw [extUnpack_kind, tagKind_eq_unknown_iff, extUnpack_tag_toNat]
    exact ⟨hlo, hhi⟩
  rw [decodeRaw, decodeCan_ext ((canDataOk_iff data).mpr hdata), decodeExt_of_unknown hkind]

/-- The payloads of no class: no id, a reserved id, or too much data for a CAN message (R98). -/
theorem serSplit_unknown {p : Bytes}
    (h : p.length < 2 ∨ ∃ (hi lo : Byte) (tl : Bytes), p = hi :: lo :: tl ∧ hi ≠ 0xFF ∧
      (0x07FF < hi.toNat * 256 + lo.toNat ∨ 8 < tl.length)) : ∃ why, serSplit p = .unknown why := by
  rcases h with hshort | ⟨hi, lo, tl, rfl, hhi, hbad⟩
  · match p, hshort with
    | [], _ => exact ⟨_, rfl⟩
    | [_], _ => exact ⟨_, rfl⟩
  · have hhost : hi ≠ Config.hostSentinel := hhi
    rw [← id16_eq] at hbad
    by_cases hid : id16 hi lo > Config.serCanMax
    · exact ⟨.idReserved, by rw [serSplit, if_neg hhost, if_pos hid]⟩
    · have htl : tl.length > Config.canDataMax := hbad.resolve_left hid
      exact ⟨.dataTooLong, by rw [serSplit, if_neg hhost, if_neg hid, if_pos htl]⟩

theorem decodeRaw_payload_unknown (pr : Params) {p : Bytes} {why : UnknownWhy} (h : serSplit p = .unknown why) :
    decodeRaw pr (.payload p) = .error (.payloadUnknown why) := by
  simp only [decodeRaw, decodePayload, h]

/-- Settles O54: each of the three arrivals is rejected by the decoder, and each rejection is a drop. -/
theorem unclassifiedArrivalCounted : Obligations.UnclassifiedArrivalCounted := by
  intro s pt ok rest hinv
  refine ⟨fun id data hdata hp hid => ?_, fun id data hdata hp hlo hhi => ?_, fun p hp hbad => ?_⟩
  · rw [step_of_decodeRaw_error hp (decodeRaw_std_unknown s.params hdata hid)]
    exact congrArg _ (dropUnknown_take hinv _ _ rest)
  · rw [step_of_decodeRaw_error hp (decodeRaw_ext_unknown s.params hdata hlo hhi)]
    exact congrArg _ (dropUnknown_take hinv _ _ rest)
  · obtain ⟨why, hwhy⟩ := serSplit_unknown hbad
    rw [step_of_decodeRaw_error hp (decodeRaw_payload_unknown s.params hwhy)]
    exact congrArg _ (dropUnknown_take hinv _ _ rest)

/-! ### The layout of the stuffed block (R42) -/

/-- The distance from the position before a block to its next zero, or to the position after its end. -/
theorem stuffRec_fst (B : Bytes) : (stuffRec B).1 = B.findIdx (· == 0) + 1 := by
  induction B with
  | nil => rfl
  | cons x xs ih =>
    rw [List.findIdx_cons]
    by_cases hx : x = 0
    · rw [hx, stuffRec_cons_zero]
      rfl
    · rw [stuffRec_cons_data hx, ih, beq_eq_false_iff_ne.mpr hx, cond_false]

theorem stuffRec_snd_length (B : Bytes) : (stuffRec B).2.length = B.length := by
  induction B with
  | nil => rfl
  | cons x xs ih =>
    by_cases hx : x = 0
    · rw [hx, stuffRec_cons_zero, List.length_cons, List.length_cons, ih]
    · rw [stuffRec_cons_data hx, List.length_cons, List.length_cons, ih]

/-- A data byte stands as it is, and a zero gives way to the distance from it to the next one. -/
theorem stuffRec_snd_getD (B : Bytes) : ∀ j, j < B.length → (stuffRec B).2.getD j 0 =
    if B.getD j 0 = 0 then BitVec.ofNat 8 (stuffRec (B.drop (j + 1))).1 else B.getD j 0 := by
  induction B with
  | nil => exact fun j hj => absurd hj (Nat.not_lt_zero j)
  | cons x xs ih =>
    intro j hj
    by_cases hx : x = 0
    · rw [hx, stuffRec_cons_zero]
      cases j with
      | zero => rfl
      | succ j => exact ih j (Nat.lt_of_succ_lt_succ hj)
    · rw [stuffRec_cons_data hx]
      cases j with
      | zero => exact (if_neg hx).symm
      | succ j => exact ih j (Nat.lt_of_succ_lt_succ hj)

@[simp] theorem stuff_length (B : Bytes) : (stuff B).length = B.length + 1 := by
  rw [stuff_eq_stuffRec, List.length_cons, stuffRec_snd_length]

theorem stuff_getD_data {B : Bytes} {j : Nat} (hj : j < B.length) (hdata : B.getD j 0 ≠ 0) :
    (stuff B).getD (j + 1) 0 = B.getD j 0 := by
  rw [stuff_eq_stuffRec, List.getD_cons_succ, stuffRec_snd_getD B j hj, if_neg hdata]

/-- A code byte is the distance to the first zero of what follows it. -/
theorem stuff_getD_code {B : Bytes} {j : Nat} (hj : j ≤ B.length) (hcode : j = 0 ∨ B.getD (j - 1) 0 = 0) :
    (stuff B).getD j 0 = BitVec.ofNat 8 ((B.drop j).findIdx (· == 0) + 1) := by
  rw [stuff_eq_stuffRec, ← stuffRec_fst]
  cases j with
  | zero => simp
  | succ j =>
    have hzero : B.getD j 0 = 0 := hcode.resolve_left j.succ_ne_zero
    rw [List.getD_cons_succ, stuffRec_snd_getD B j hj, if_pos hzero]

/-- In a block whose distances fit a byte, the code byte's value is the distance itself. -/
theorem stuff_getD_code_toNat {B : Bytes} {j : Nat} (hB : B.length < 255) (hj : j ≤ B.length)
    (hcode : j = 0 ∨ B.getD (j - 1) 0 = 0) :
    ((stuff B).getD j 0).toNat = (B.drop j).findIdx (· == 0) + 1 := by
  have hle : (B.drop j).findIdx (· == 0) ≤ (B.drop j).length := List.findIdx_le_length
  rw [List.length_drop] at hle
  rw [stuff_getD_code hj hcode, BitVec.toNat_ofNat, Nat.mod_eq_of_lt (by omega)]

theorem drop_getElem_eq_getD {B : Bytes} {j k : Nat} (hk : k < (B.drop j).length) :
    (B.drop j)[k] = B.getD (j + k) 0 := by
  rw [List.length_drop] at hk
  rw [List.getElem_drop, List.getD_eq_getElem _ _ (by omega)]

/-- The first zero after a position is the one with data only between. -/
theorem findIdx_drop_of_zero {B : Bytes} {j nxt : Nat} (hj : j < nxt) (hnxt : nxt ≤ B.length)
    (hzero : B.getD (nxt - 1) 0 = 0) (hdata : ∀ k, j < k → k < nxt → B.getD (k - 1) 0 ≠ 0) :
    (B.drop j).findIdx (· == 0) = nxt - 1 - j := by
  have hlt : nxt - 1 - j < (B.drop j).length := by
    rw [List.length_drop]
    omega
  refine (List.findIdx_eq hlt).mpr ⟨?_, fun k hk => ?_⟩
  · rw [drop_getElem_eq_getD, show j + (nxt - 1 - j) = nxt - 1 by omega, hzero]
    rfl
  · rw [drop_getElem_eq_getD, beq_eq_false_iff_ne]
    exact hdata (j + k + 1) (by omega) (by omega)

theorem findIdx_drop_of_data {B : Bytes} {j : Nat}
    (hdata : ∀ k, j < k → k ≤ B.length → B.getD (k - 1) 0 ≠ 0) :
    (B.drop j).findIdx (· == 0) = B.length - j := by
  rw [← List.length_drop]
  refine List.findIdx_eq_length_of_false fun x hx => ?_
  obtain ⟨k, hk, rfl⟩ := List.getElem_of_mem hx
  rw [drop_getElem_eq_getD, beq_eq_false_iff_ne]
  rw [List.length_drop] at hk
  exact hdata (j + k + 1) (by omega) (by omega)

/-- Settles O16: a position over a data byte, then the code positions with and without a zero after them. -/
theorem stuffedLayout : Obligations.StuffedLayout := by
  intro B hB1 hB12
  refine ⟨stuff_length B, fun j hj1 hj hdata => ?_, fun j hj hcode => ?_⟩
  · obtain ⟨j, rfl⟩ := Nat.exists_eq_add_of_le' hj1
    exact stuff_getD_data hj hdata
  · rw [stuff_getD_code_toNat (by omega) hj hcode]
    refine ⟨fun nxt hlt hle hzero hnext => ?_, fun hnone => ?_⟩
    · rw [findIdx_drop_of_zero hlt hle hzero hnext]
      omega
    · rw [findIdx_drop_of_data hnone]
      omega

end Sys2Proof.EncodingProofs
end

section
/-! PROOFS. The frame encoder: the checksum is the one byte that brings the sum to 0 mod 256, stuffing adds
one to the sum for each byte it writes and is undone by unstuffing, and `ENC.FRAME` emits the frame made of
the two, whose laws follow. -/

namespace Sys2Proof.EncoderProofs

open Sys2Proof.Machine Sys2Proof.EncodingProofs

/-! ### The checksum (R60) -/

theorem cks_eq_neg (p : Bytes) : cks p = -BitVec.ofNat 8 (sumBytes p) := by
  apply BitVec.eq_of_toNat_eq
  rw [cks_toNat, BitVec.toNat_neg, BitVec.toNat_ofNat]

theorem sumBytes_concat_mod_iff (p : Bytes) (c : Byte) :
    sumBytes (p ++ [c]) % 256 = 0 ↔ c = cks p := by
  have hc : c.toNat < 256 := c.isLt
  rw [← BitVec.toNat_inj, cks_toNat, sumBytes_append, sumBytes_cons, sumBytes_nil]
  omega

theorem sumBytes_concat_cks (p : Bytes) : sumBytes (p ++ [cks p]) % 256 = 0 :=
  (sumBytes_concat_mod_iff p _).mpr rfl

/-- Settles O15. -/
theorem checksumIsTheUniqueByte : Obligations.ChecksumIsTheUniqueByte :=
  fun p c => ⟨cks_toNat p, cks_eq_neg p, sumBytes_concat_mod_iff p c⟩

/-! ### Stuffing a block whose distances fit a byte (R61) -/

theorem stuffRec_fst_pos (B : Bytes) : 0 < (stuffRec B).1 := by
  rw [stuffRec_fst]
  exact Nat.succ_pos _

/-- A code byte holds its distance without wrapping. -/
theorem stuffRec_code_toNat {B : Bytes} (hB : B.length < 255) :
    (BitVec.ofNat 8 (stuffRec B).1).toNat = (stuffRec B).1 := by
  have hle : B.findIdx (· == 0) ≤ B.length := List.findIdx_le_length
  rw [BitVec.toNat_ofNat, stuffRec_fst, Nat.mod_eq_of_lt (by omega)]

theorem stuffRec_code_ne_zero {B : Bytes} (hB : B.length < 255) :
    BitVec.ofNat 8 (stuffRec B).1 ≠ 0 := by
  intro hzero
  have hpos := stuffRec_fst_pos B
  rw [← stuffRec_code_toNat hB, hzero] at hpos
  exact Nat.lt_irrefl 0 hpos

theorem stuffRec_snd_ne_zero {B : Bytes} (hB : B.length < 255) : ∀ x ∈ (stuffRec B).2, x ≠ 0 := by
  induction B with
  | nil => simp
  | cons x xs ih =>
    have hxs : xs.length < 255 := Nat.lt_of_succ_lt hB
    by_cases hx : x = 0
    · rw [hx, stuffRec_cons_zero]
      exact List.forall_mem_cons.mpr ⟨stuffRec_code_ne_zero hxs, ih hxs⟩
    · rw [stuffRec_cons_data hx]
      exact List.forall_mem_cons.mpr ⟨hx, ih hxs⟩

theorem stuff_ne_zero {B : Bytes} (hB : B.length < 255) : ∀ x ∈ stuff B, x ≠ 0 := by
  rw [stuff_eq_stuffRec]
  exact List.forall_mem_cons.mpr ⟨stuffRec_code_ne_zero hB, stuffRec_snd_ne_zero hB⟩

/-- The distances cover the block and the position after it, one each: a data byte lengthens the distance it
stands under by 1, and a zero starts a distance of its own. -/
theorem stuffRec_sum {B : Bytes} (hB : B.length < 255) :
    (stuffRec B).1 + sumBytes (stuffRec B).2 = sumBytes B + B.length + 1 := by
  induction B with
  | nil => rfl
  | cons x xs ih =>
    have hxs : xs.length < 255 := Nat.lt_of_succ_lt hB
    have hsum := ih hxs
    by_cases hx : x = 0
    · rw [hx, stuffRec_cons_zero, sumBytes_cons, sumBytes_cons, stuffRec_code_toNat hxs, hsum,
        List.length_cons]
      show 1 + (sumBytes xs + xs.length + 1) = 0 + sumBytes xs + (xs.length + 1) + 1
      omega
    · rw [stuffRec_cons_data hx, sumBytes_cons, sumBytes_cons, List.length_cons]
      omega

theorem sumBytes_stuff {B : Bytes} (hB : B.length < 255) :
    sumBytes (stuff B) = sumBytes B + B.length + 1 := by
  rw [stuff_eq_stuffRec, sumBytes_cons, stuffRec_code_toNat hB, stuffRec_sum hB]

/-- Unstuffing from the distance that stuffing computed counts it down over the data bytes, and at 1 reads the
next distance where the block's zero stood. -/
theorem unstuffRec_stuffRec {B : Bytes} (hB : B.length < 255) :
    unstuffRec (stuffRec B).1 (stuffRec B).2 = some B := by
  induction B with
  | nil => rfl
  | cons x xs ih =>
    have hxs : xs.length < 255 := Nat.lt_of_succ_lt hB
    by_cases hx : x = 0
    · rw [hx, stuffRec_cons_zero, unstuffRec, if_neg Nat.one_ne_zero, if_pos rfl,
        stuffRec_code_toNat hxs, ih hxs, Option.map_some]
    · have hne : (stuffRec xs).1 + 1 ≠ 1 := Nat.succ_ne_succ_iff.mpr (stuffRec_fst_pos xs).ne'
      rw [stuffRec_cons_data hx, unstuffRec, if_neg (Nat.succ_ne_zero _), if_neg hne,
        Nat.add_sub_cancel, ih hxs, Option.map_some]

/-- Unstuffing inverts stuffing, on every block whose distances fit a byte. -/
theorem unstuff_stuff {B : Bytes} (hB : B.length < 255) : unstuff (stuff B) = some B := by
  rw [stuff_eq_stuffRec, unstuff_cons_eq_unstuffRec, stuffRec_code_toNat hB, unstuffRec_stuffRec hB]

theorem stuff_injective {B B' : Bytes} (hB : B.length < 255) (hB' : B'.length < 255)
    (h : stuff B = stuff B') : B = B' := by
  have hsome := congrArg unstuff h
  rw [unstuff_stuff hB, unstuff_stuff hB'] at hsome
  exact Option.some.inj hsome

/-- Settles O17: the bound 12 keeps every distance within a byte. -/
theorem stuffProperties : Obligations.StuffProperties := by
  intro B _ hB
  have hfit : B.length < 255 := by omega
  exact ⟨stuff_length B, stuff_ne_zero hfit, sumBytes_stuff hfit,
    fun B' _ hB' h => stuff_injective (by omega) hfit h, unstuff_stuff hfit⟩

/-! ### `ENC.FRAME` (R62) -/

theorem encodeFrame_of_le {p : Bytes} (hp : p.length ≤ 11) : encodeFrame p = .ok (frameOf p) :=
  if_neg (Nat.not_lt.mpr hp)

theorem encodeFrame_of_lt {p : Bytes} (hp : 11 < p.length) : encodeFrame p = .error .tooLong :=
  if_pos hp

theorem exec_encFrame_of_le {p : Bytes} (hp : p.length ≤ 11) (s : State) :
    exec (.encFrame p) s = .next ((s.emit (frameOf p)).respond .encOk) := by
  simp only [exec, execEncFrame, encodeFrame_of_le hp]

theorem exec_encFrame_of_lt {p : Bytes} (hp : 11 < p.length) (s : State) :
    exec (.encFrame p) s = .next (s.respond (.refuse .tooLong)) := by
  simp only [exec, execEncFrame, encodeFrame_of_lt hp]

/-- Settles O18: the byte that makes the sum 0 mod 256 is the checksum, so what is emitted is `frameOf`. -/
theorem encFrameEmitsFrameOrRefuses : Obligations.EncFrameEmitsFrameOrRefuses := by
  intro s p c hc
  obtain rfl : c = cks p := (sumBytes_concat_mod_iff p c).mp hc
  exact ⟨fun hp => exec_encFrame_of_le hp s, fun hp => exec_encFrame_of_lt hp s⟩

/-! ### The frame (R63) -/

theorem length_concat_cks (p : Bytes) : (p ++ [cks p]).length = p.length + 1 := List.length_append

@[simp] theorem frameOf_length (p : Bytes) : (frameOf p).length = p.length + 3 := by
  rw [frameOf, List.length_append, stuff_length, length_concat_cks, List.length_singleton]

@[simp] theorem frameOf_getLast? (p : Bytes) : (frameOf p).getLast? = some 0 := List.getLast?_concat

@[simp] theorem frameOf_dropLast (p : Bytes) : (frameOf p).dropLast = stuff (p ++ [cks p]) :=
  List.dropLast_concat

/-- The block sums to 0 mod 256, and stuffing adds 1 for each byte of the stuffed block. -/
theorem sumBytes_frameOf {p : Bytes} (hp : p.length < 254) :
    sumBytes (frameOf p) % 256 = (p.length + 2) % 256 := by
  have hblock := length_concat_cks p
  have hcks := sumBytes_concat_cks p
  have hstuff := sumBytes_stuff (B := p ++ [cks p]) (by omega)
  have hframe : sumBytes (frameOf p) = sumBytes (stuff (p ++ [cks p])) := by
    rw [frameOf, sumBytes_append]
    rfl
  omega

theorem frameOf_injective {p q : Bytes} (hp : p.length < 254) (hq : q.length < 254)
    (h : frameOf p = frameOf q) : p = q := by
  have hstuff : stuff (p ++ [cks p]) = stuff (q ++ [cks q]) := List.append_cancel_right h
  have hblock : p ++ [cks p] = q ++ [cks q] :=
    stuff_injective (by rw [length_concat_cks]; omega) (by rw [length_concat_cks]; omega) hstuff
  exact List.append_inj_left' hblock rfl

/-- What `ENC.FRAME` appends to `ser_tx` is the frame and nothing else. -/
theorem emitted_eq_frameOf {p F : Bytes} {s t : State} (hp : p.length ≤ 11)
    (h : exec (.encFrame p) s = .next t) (hF : t.serTx = s.serTx ++ F) : F = frameOf p := by
  rw [exec_encFrame_of_le hp] at h
  cases h
  exact (List.append_cancel_left hF).symm

/-- Settles O19. -/
theorem frameLaws : Obligations.FrameLaws := by
  intro s t p F hp hexec hF
  obtain rfl := emitted_eq_frameOf hp hexec hF
  refine ⟨frameOf_length p, ⟨frameOf_getLast? p, ?_⟩, ?_, fun q u hq hne hexecq hFq => ?_⟩
  · rw [frameOf_dropLast]
    exact stuff_ne_zero (by rw [length_concat_cks]; omega)
  · rw [frameOf_length, sumBytes_frameOf (by omega)]
    rfl
  · have hframe : frameOf p = frameOf q := emitted_eq_frameOf hq hexecq hFq
    exact hne (frameOf_injective (by omega) (by omega) hframe).symm

end Sys2Proof.EncoderProofs
end

section
/-! PROOFS. The frame decoder: what unstuffing accepts is one chain of distances (`Chain`), which fixes its
inverse, its sum and its length; a sequence of bytes pushed is the effects of the single bytes one after the
other (`Answers`). What a frame, a damaged frame and a frame after a delimiter do follows from the two. -/

namespace Sys2Proof.DecoderProofs

open Sys2Proof.Machine Sys2Proof.Safety Sys2Proof.StateProofs Sys2Proof.EncodingProofs
open Sys2Proof.EncoderProofs Sys2Proof.MemoryProofs

/-! ### The chain of distances that unstuffing walks (R70) -/

/-- `Chain k b B`: where the next code byte, or the delimiter, is `k` positions ahead, the stuffed bytes `b` still
to come stand for the bytes `B`. At distance 1 the delimiter is reached, or a code byte that stands for a zero and
begins the next distance; at a larger distance a data byte comes first. -/
inductive Chain : Nat → Bytes → Bytes → Prop
  | stop : Chain 1 [] []
  | code {x : Byte} {b B : Bytes} (tail : Chain x.toNat b B) : Chain 1 (x :: b) (0 :: B)
  | data {k : Nat} {x : Byte} {b B : Bytes} (tail : Chain (k + 1) b B) : Chain (k + 2) (x :: b) (x :: B)

theorem chain_of_unstuffRec {b : Bytes} : ∀ {k : Nat} {B : Bytes}, unstuffRec k b = some B → Chain k b B := by
  induction b with
  | nil =>
    intro k B h
    obtain ⟨rfl, rfl⟩ : k = 1 ∧ [] = B := by simpa [unstuffRec] using h
    exact .stop
  | cons x xs ih =>
    intro k B h
    match k with
    | 0 => simp [unstuffRec] at h
    | 1 =>
      obtain ⟨r, hr, rfl⟩ : ∃ r, unstuffRec x.toNat xs = some r ∧ 0 :: r = B := by
        simpa [unstuffRec] using h
      exact .code (ih hr)
    | k + 2 =>
      obtain ⟨r, hr, rfl⟩ : ∃ r, unstuffRec (k + 1) xs = some r ∧ x :: r = B := by
        simpa [unstuffRec] using h
      exact .data (ih hr)

theorem unstuffRec_of_chain {k : Nat} {b B : Bytes} (h : Chain k b B) : unstuffRec k b = some B := by
  induction h with
  | stop => rfl
  | code _ ih => simp [unstuffRec, ih]
  | data _ ih => simp [unstuffRec, ih]

/-- An accumulation unstuffs exactly when its first byte begins a chain over the others. -/
theorem unstuff_eq_some_iff {b B : Bytes} :
    unstuff b = some B ↔ ∃ c rest, b = c :: rest ∧ Chain c.toNat rest B := by
  constructor
  · intro h
    cases b with
    | nil => simp at h
    | cons c rest =>
      rw [unstuff_cons_eq_unstuffRec] at h
      exact ⟨c, rest, rfl, chain_of_unstuffRec h⟩
  · rintro ⟨c, rest, rfl, h⟩
    rw [unstuff_cons_eq_unstuffRec, unstuffRec_of_chain h]

namespace Chain

variable {k : Nat} {b B : Bytes}

theorem length_eq (h : Chain k b B) : b.length = B.length := by
  induction h with
  | stop => rfl
  | code _ ih | data _ ih => simp [ih]

/-- The distances telescope: they add up to one for each byte and one for the delimiter. -/
theorem sum_eq (h : Chain k b B) : k + sumBytes b = sumBytes B + B.length + 1 := by
  induction h with
  | stop => rfl
  | code _ ih | data _ ih =>
    simp
    omega

/-- On non-zero bytes a chain is the one that stuffing writes. -/
theorem stuffRec_eq (h : Chain k b B) (hb : ∀ x ∈ b, x ≠ 0) : stuffRec B = (k, b) := by
  induction h with
  | stop => rfl
  | code _ ih =>
    obtain ⟨-, hb⟩ := List.forall_mem_cons.mp hb
    rw [stuffRec_cons_zero, ih hb, BitVec.ofNat_toNat, BitVec.setWidth_eq]
  | data _ ih =>
    obtain ⟨hx, hb⟩ := List.forall_mem_cons.mp hb
    rw [stuffRec_cons_data hx, ih hb]

/-- A data byte may be replaced: the chain never reads it. -/
theorem set_data (h : Chain k b B) (v : Byte) : ∀ {j : Nat}, B.getD j 0 ≠ 0 →
    Chain k (b.set j v) (B.set j v) := by
  induction h with
  | stop => exact fun _ => .stop
  | code tail ih =>
    intro j hj
    cases j with
    | zero => exact absurd rfl hj
    | succ j => exact .code (ih hj)
  | data tail ih =>
    intro j hj
    cases j with
    | zero => exact .data tail
    | succ j => exact .data (ih hj)

end Chain

theorem length_of_unstuff {b B : Bytes} (h : unstuff b = some B) : b.length = B.length + 1 := by
  obtain ⟨c, rest, rfl, hchain⟩ := unstuff_eq_some_iff.mp h
  rw [List.length_cons, hchain.length_eq]

theorem sumBytes_of_unstuff {b B : Bytes} (h : unstuff b = some B) : sumBytes b = sumBytes B + b.length := by
  rw [length_of_unstuff h]
  obtain ⟨c, rest, rfl, hchain⟩ := unstuff_eq_some_iff.mp h
  rw [sumBytes_cons, hchain.sum_eq, Nat.add_assoc]

theorem stuff_of_unstuff {b B : Bytes} (hb : ∀ x ∈ b, x ≠ 0) (h : unstuff b = some B) : stuff B = b := by
  obtain ⟨c, rest, rfl, hchain⟩ := unstuff_eq_some_iff.mp h
  obtain ⟨-, hrest⟩ := List.forall_mem_cons.mp hb
  rw [stuff_eq_stuffRec, hchain.stuffRec_eq hrest, BitVec.ofNat_toNat, BitVec.setWidth_eq]

/-- A data byte replaced in an accumulation that unstuffs; position `j` of the block stands at `j + 1`. -/
theorem unstuff_set_data {b B : Bytes} {j : Nat} (h : unstuff b = some B) (hdata : B.getD j 0 ≠ 0) (v : Byte) :
    unstuff (b.set (j + 1) v) = some (B.set j v) := by
  obtain ⟨c, rest, rfl, hchain⟩ := unstuff_eq_some_iff.mp h
  exact unstuff_eq_some_iff.mpr ⟨c, rest.set j v, rfl, hchain.set_data v hdata⟩

/-- Settles O26: the stuffed block is one byte longer than the block, so the bound 255 is the encoder's. -/
theorem unstuffAcceptsExactlyStuffed : Obligations.UnstuffAcceptsExactlyStuffed := by
  intro b _ hlen hb B
  refine ⟨stuff_of_unstuff hb, fun hstuff => ?_⟩
  have hfit := stuff_length B
  rw [hstuff] at hfit
  exact hstuff ▸ unstuff_stuff (by omega)

/-- Settles O27. -/
theorem sumLawOfChain : Obligations.SumLawOfChain := by
  intro b B h
  have hsum := sumBytes_of_unstuff h
  exact ⟨hsum, by omega⟩

/-! ### The verdict on an accumulation (R71) -/

section

variable {minBlock : Nat} {b B : Bytes}

theorem check_of_malformed (h : unstuff b = none) : check minBlock b = .bad .checksumChain := by
  simp [check, h]

theorem check_of_badSum (h : unstuff b = some B) (hsum : sumBytes B % 256 ≠ 0) :
    check minBlock b = .bad .checksumSum := by
  simp [check, h, hsum]

theorem check_of_short (h : unstuff b = some B) (hsum : sumBytes B % 256 = 0) (hlen : B.length < minBlock) :
    check minBlock b = .bad .short := by
  simp [check, h, hsum, hlen]

theorem check_of_long {p : Bytes} {c : Byte} (h : unstuff b = some (p ++ [c]))
    (hsum : sumBytes (p ++ [c]) % 256 = 0) (hlen : minBlock ≤ p.length + 1) : check minBlock b = .good p := by
  simp only [check, h, hsum]
  simp [hlen]

/-- A payload that passes the check is, with its checksum byte, the block of the accumulation. -/
theorem unstuff_of_check_good {p : Bytes} (hmin : 1 ≤ minBlock) (h : check minBlock b = .good p) :
    unstuff b = some (p ++ [cks p]) ∧ minBlock ≤ p.length + 1 := by
  rcases check_cases minBlock b with ⟨-, e⟩ | ⟨_, -, -, e⟩ | ⟨_, -, -, -, e⟩ | ⟨B, hB, hsum, hlen, e⟩ <;>
    rw [h] at e <;> cases e
  rcases List.eq_nil_or_concat' B with rfl | ⟨q, c, rfl⟩
  · exact absurd (hmin.trans hlen) (by decide)
  · rw [List.dropLast_concat, ← (sumBytes_concat_mod_iff q c).mp hsum]
    exact ⟨hB, by simpa using hlen⟩

end

/-! ### One byte pushed (R72 to R75) -/

/-- What `DEC.PUSH b` leaves. -/
def pushByte (b : Byte) (s : State) : State := if b = 0 then pushDelimiter s else pushData b s

theorem exec_decPush (b : Byte) (s : State) : exec (.decPush b) s = .next (pushByte b s) := rfl

@[simp] theorem pushByte_zero (s : State) : pushByte 0 s = pushDelimiter s := rfl

theorem pushByte_of_ne_zero {b : Byte} (hb : b ≠ 0) (s : State) : pushByte b s = pushData b s := if_neg hb

theorem pushData_of_room (b : Byte) {s : State} (h : s.rxLen < 13) :
    pushData b s = (s.setRx (s.rxBuf ++ [b])).respond (.dec .none) := if_pos h

theorem pushData_of_full (b : Byte) {s : State} (h : s.rxLen = 13) :
    pushData b s = takeDrop .overflow s := if_neg (by rw [h]; decide)

theorem pushDelimiter_of_empty {s : State} (h : s.rxLen = 0) :
    pushDelimiter s = (s.setRx []).respond (.dec .idle) := if_pos h

theorem pushDelimiter_of_bad {s : State} {c : DropCause} (hlen : s.rxLen ≠ 0)
    (h : check s.params.minBlock s.rxBuf = .bad c) : pushDelimiter s = takeDrop c s := by
  simp [pushDelimiter, hlen, h]

theorem pushDelimiter_of_good {s : State} {p : Bytes} (hlen : s.rxLen ≠ 0)
    (h : check s.params.minBlock s.rxBuf = .good p) :
    pushDelimiter s = (s.setRx []).respond (.dec (.deliver p)) := by
  simp [pushDelimiter, hlen, h]

/-- Only a good verdict delivers. -/
theorem check_of_pushDelimiter_deliver {s : State} {p : Bytes}
    (h : (pushDelimiter s).result = event (.deliver p)) :
    check s.params.minBlock s.rxBuf = .good p ∧
      pushDelimiter s = (s.setRx []).respond (.dec (.deliver p)) := by
  rcases pushDelimiter_cases s with ⟨-, e⟩ | ⟨c, -, -, e⟩ | ⟨q, -, hgood, e⟩ <;> rw [e] at h <;> cases h
  exact ⟨hgood, e⟩

/-- Where nothing has accumulated, emptying the buffer changes nothing. -/
theorem setRx_nil {s : State} (h : s.rxBuf = []) : s.setRx [] = s := by
  rw [← h]
  rfl

/-- A drop empties the buffer, whatever stood in it. -/
theorem takeDrop_setRx (c : DropCause) (s : State) (m : Memory) : takeDrop c (s.setRx m) = takeDrop c s := by
  rw [takeDrop, takeDrop, State.setRx_setRx]

theorem rxLen_ne_zero_of_unstuff {s : State} {B : Bytes} (h : unstuff s.rxBuf = some B) : s.rxLen ≠ 0 := by
  rw [State.rxLen, length_of_unstuff h]
  exact Nat.succ_ne_zero _

/-! ### Drops counted in the words of R73 -/

theorem satInc_eq_counted {s : State} {v : Nat} (h : v < 2 ^ s.params.cntW) :
    satInc s.params.cntW v = counted s v := satInc_eq h

theorem takeDrop_overflow_eq {s : State} (h : s.cntOverflow < 2 ^ s.params.cntW) : takeDrop .overflow s =
    { s with rxBuf := [], cntOverflow := counted s s.cntOverflow, result := event (.drop .overflow) } := by
  rw [← satInc_eq_counted h]
  rfl

/-- A malformed chain and a bad sum count alike. -/
theorem takeDrop_checksum_eq {s : State} {c : DropCause} (hc : c.counter = .checksum)
    (h : s.cntChecksum < 2 ^ s.params.cntW) : takeDrop c s =
    { s with rxBuf := [], cntChecksum := counted s s.cntChecksum, result := event (.drop c) } := by
  rw [takeDrop, hc, ← satInc_eq_counted h]
  rfl

theorem takeDrop_short_eq {s : State} (h : s.cntShort < 2 ^ s.params.cntW) : takeDrop .short s =
    { s with rxBuf := [], cntShort := counted s s.cntShort, result := event (.drop .short) } := by
  rw [← satInc_eq_counted h]
  rfl

/-! ### `DEC.PUSH` and `CNT.READ` -/

/-- Settles O20. -/
theorem pushStoresDataByte : Obligations.PushStoresDataByte := by
  intro s b hb hroom
  rw [exec_decPush, pushByte_of_ne_zero hb, pushData_of_room b hroom]
  rfl

/-- Settles O21. -/
theorem pushOverflowDiscardsAndCounts : Obligations.PushOverflowDiscardsAndCounts := by
  rintro s b ⟨-, hcount⟩ hb hfull
  rw [exec_decPush, pushByte_of_ne_zero hb, pushData_of_full b hfull, takeDrop_overflow_eq (hcount .overflow)]

/-- Settles O22. -/
theorem delimiterOnEmptyIsIdle : Obligations.DelimiterOnEmptyIsIdle := by
  intro s hempty
  rw [exec_decPush, pushByte_zero, pushDelimiter_of_empty hempty, setRx_nil (List.length_eq_zero_iff.mp hempty)]
  rfl

/-- Settles O24: the buffer's bound of 13 bytes leaves at most 12 for the block and 11 for its payload. -/
theorem delimiterJudgesAccumulation : Obligations.DelimiterJudgesAccumulation := by
  rintro s ⟨hwf, hcount⟩
  obtain ⟨hcap, -⟩ := (Memory.wf_iff s.rxBuf).mp hwf
  simp only [exec_decPush, pushByte_zero]
  refine ⟨fun hempty => ?_, fun hlen hnone => ?_, fun hlen B hB => ⟨fun hsum => ?_, fun hsum hshort => ?_, ?_⟩⟩
  · rw [pushDelimiter_of_empty hempty]
    rfl
  · rw [pushDelimiter_of_bad hlen (check_of_malformed hnone), takeDrop_checksum_eq rfl (hcount .checksum)]
  · rw [pushDelimiter_of_bad hlen (check_of_badSum hB hsum), takeDrop_checksum_eq rfl (hcount .checksum)]
  · rw [pushDelimiter_of_bad hlen (check_of_short hB hsum hshort), takeDrop_short_eq (hcount .short)]
  · rintro hsum hlong p c rfl
    have hblock : (p ++ [c]).length = p.length + 1 := List.length_append
    have hbound := length_of_unstuff hB
    rw [hblock] at hlong hbound
    rw [pushDelimiter_of_good hlen (check_of_long hB hsum hlong)]
    refine ⟨rfl, hlong, ?_⟩
    simp only [Config.rxCap] at hcap
    omega

/-- Settles O25: the accumulation unstuffs to the payload and its checksum byte, so it is what stuffing the two
produces. -/
theorem deliveredPayloadIsFramed : Obligations.DeliveredPayloadIsFramed := by
  rintro s t p ⟨hwf, -⟩ hmin hexec hresult
  obtain ⟨hcap, hnz⟩ := (Memory.wf_iff s.rxBuf).mp hwf
  rw [exec_decPush] at hexec
  cases hexec
  obtain ⟨hgood, ht⟩ := check_of_pushDelimiter_deliver hresult
  obtain ⟨hB, hlong⟩ := unstuff_of_check_good hmin hgood
  have hbound := length_of_unstuff hB
  rw [length_concat_cks] at hbound
  simp only [Config.rxCap] at hcap
  refine ⟨by omega, by omega, ?_, fun c => ?_⟩
  · rw [frameOf, stuff_of_unstuff hnz hB]
  · rw [pushByte_zero, ht]
    simp

/-- Settles O32. -/
theorem bufferLengthMoves : Obligations.BufferLengthMoves := by
  intro s b hle
  refine ⟨pushByte b s, exec_decPush b s, ?_⟩
  by_cases hb : b = 0
  · rw [if_pos hb, hb, pushByte_zero, State.rxLen, pushDelimiter_rxBuf]
    rfl
  · rw [if_neg hb, pushByte_of_ne_zero hb]
    by_cases hfull : s.rxLen = 13
    · rw [if_pos hfull, pushData_of_full b hfull, takeDrop_rxLen]
    · rw [if_neg hfull, pushData_of_room b (by omega), State.respond_rxLen, State.setRx_rxLen,
        List.length_append]
      rfl

/-- Settles O33. -/
theorem cntReadReturnsCounter : Obligations.CntReadReturnsCounter :=
  fun _ => ⟨rfl, rfl, rfl, rfl⟩

/-! ### A sequence of bytes pushed -/

/-- `DEC.PUSH` of each byte of a sequence, presented in order from `s`: the events returned, and the state left,
in which nothing of the sequence is pending any more. -/
structure Answers (s : State) (bytes : Bytes) (events : List (Option Result)) (t : State) : Prop where
  results : results bytes.length (pushing s bytes) = events
  after : after bytes.length (pushing s bytes) = .next t

/-- `DEC.PUSH` neither reads nor writes the list of requests. -/
theorem pushByte_withPending (b : Byte) (s : State) (reqs : List Request) :
    pushByte b { s with pending := reqs } = { pushByte b s with pending := reqs } := by
  have hdrop (c : DropCause) :
      takeDrop c { s with pending := reqs } = { takeDrop c s with pending := reqs } := by
    cases c <;> rfl
  by_cases hb : b = 0
  · rw [hb, pushByte_zero, pushByte_zero]
    rcases pushDelimiter_cases s with ⟨hempty, e⟩ | ⟨c, hlen, hbad, e⟩ | ⟨p, hlen, hgood, e⟩
    · rw [e]
      exact pushDelimiter_of_empty hempty
    · rw [e, ← hdrop]
      exact pushDelimiter_of_bad hlen hbad
    · rw [e]
      exact pushDelimiter_of_good hlen hgood
  · rw [pushByte_of_ne_zero hb, pushByte_of_ne_zero hb]
    rcases pushData_cases b s with ⟨hroom, e⟩ | ⟨hfull, e⟩
    · rw [e]
      exact pushData_of_room b hroom
    · rw [e, ← hdrop]
      exact if_neg (Nat.not_lt.mpr hfull)

theorem pushByte_pending (b : Byte) (s : State) : (pushByte b s).pending = s.pending :=
  (exec_moves (exec_decPush b s)).pending

theorem pushByte_params (b : Byte) (s : State) : (pushByte b s).params = s.params :=
  (exec_moves (exec_decPush b s)).params

theorem pushByte_txOk (b : Byte) (s : State) : (pushByte b s).txOk = s.txOk := by
  by_cases hb : b = 0
  · rw [hb, pushByte_zero]
    rcases pushDelimiter_cases s with ⟨-, e⟩ | ⟨c, -, -, e⟩ | ⟨p, -, -, e⟩ <;> simp [e]
  · rw [pushByte_of_ne_zero hb]
    rcases pushData_cases b s with ⟨-, e⟩ | ⟨-, e⟩ <;> simp [e]

/-- The side inputs stand after `DEC.PUSH` as before it, so the requests still to come are the same. -/
theorem pushRequest_pushByte (b : Byte) (s : State) : pushRequest (pushByte b s) = pushRequest s := by
  funext x
  rw [pushRequest, pushRequest, exec_ptPresent (exec_decPush b s), pushByte_txOk]

theorem step_pushing_cons (s : State) (b : Byte) (bytes : Bytes) :
    step (pushing s (b :: bytes)) = .next (pushing (pushByte b s) bytes) := by
  have hstep : step (pushing s (b :: bytes)) = exec (.decPush b) (pushing s bytes) :=
    step_of_decode_ok (s := pushing s (b :: bytes)) (r := pushRequest s b) rfl rfl
  rw [hstep, exec_decPush, pushing, pushing, pushByte_withPending, pushRequest_pushByte, pushByte_pending]

theorem results_succ {s t : State} (h : step s = .next t) (n : Nat) :
    results (n + 1) s = t.result :: results n t := by
  simp only [results, h]

theorem run_succ (M : Host.Core) {s t : M.State} (h : M.step s = .next t) (n : Nat) :
    M.run (n + 1) s = M.run n t := by
  simp only [Host.Core.run, h]

theorem after_succ {s t : State} (h : step s = .next t) (n : Nat) : after (n + 1) s = after n t :=
  run_succ Sys2Proof.core h n

namespace Answers

variable {s t : State} {b : Byte} {bytes : Bytes} {events : List (Option Result)}

theorem nil (s : State) : Answers s [] [] s := ⟨rfl, rfl⟩

theorem cons (h : Answers (pushByte b s) bytes events t) :
    Answers s (b :: bytes) ((pushByte b s).result :: events) t where
  results := by
    rw [List.length_cons, results_succ (step_pushing_cons s b bytes), h.results]
    rfl
  after := by rw [List.length_cons, after_succ (step_pushing_cons s b bytes), h.after]

end Answers

theorem emit_nil (s : State) : s.emit [] = s := by
  simp [State.emit]

/-- What the last step returned has no part in the verdict. -/
theorem pushDelimiter_respond (s : State) (r : Result) :
    pushDelimiter (s.respond r) = pushDelimiter s := by
  rw [State.respond_eq_emit_nil, pushDelimiter_emit_respond, emit_nil]

/-- Non-zero bytes that fit the buffer are stored without an event, and the delimiter after them judges what
has accumulated. -/
theorem answers_accumulation {bytes : Bytes} (hnz : ∀ x ∈ bytes, x ≠ 0) : ∀ {s : State},
    s.rxLen + bytes.length ≤ 13 →
    Answers s (bytes ++ [0])
      (List.replicate bytes.length (event .none) ++ [(pushDelimiter (s.setRx (s.rxBuf ++ bytes))).result])
      (pushDelimiter (s.setRx (s.rxBuf ++ bytes))) := by
  induction bytes with
  | nil =>
    intro s _
    rw [List.append_nil]
    exact .cons (.nil _)
  | cons b bytes ih =>
    intro s hlen
    obtain ⟨hb, hnz⟩ := List.forall_mem_cons.mp hnz
    rw [List.length_cons] at hlen
    have hpush : pushByte b s = (s.setRx (s.rxBuf ++ [b])).respond (.dec .none) := by
      rw [pushByte_of_ne_zero hb, pushData_of_room b (by omega)]
    have hfinal : pushDelimiter ((pushByte b s).setRx ((pushByte b s).rxBuf ++ bytes)) =
        pushDelimiter (s.setRx (s.rxBuf ++ b :: bytes)) := by
      rw [hpush, State.respond_rxBuf, State.setRx_rxBuf, List.append_assoc, List.singleton_append]
      exact pushDelimiter_respond (s.setRx (s.rxBuf ++ b :: bytes)) (.dec .none)
    have hlen' : (pushByte b s).rxLen + bytes.length ≤ 13 := by
      rw [hpush, State.respond_rxLen, State.setRx_rxLen, List.length_append, List.length_singleton]
      exact (Nat.add_right_comm _ _ _).trans_le hlen
    have hrest := (ih hnz hlen').cons
    rw [hfinal, hpush] at hrest
    exact hrest

/-- An accumulation from an empty buffer. -/
theorem answers_of_empty {s : State} {bytes : Bytes} (hempty : s.rxBuf = []) (hnz : ∀ x ∈ bytes, x ≠ 0)
    (hlen : bytes.length ≤ 13) :
    Answers s (bytes ++ [0])
      (List.replicate bytes.length (event .none) ++ [(pushDelimiter (s.setRx bytes)).result])
      (pushDelimiter (s.setRx bytes)) := by
  have h := answers_accumulation (s := s) hnz (by rw [State.rxLen, hempty, List.length_nil]; omega)
  rwa [hempty, List.nil_append] at h

/-! ### A frame pushed (R79) -/

section

variable {s : State} {p : Bytes}

theorem stuff_block_length (p : Bytes) : (stuff (p ++ [cks p])).length = p.length + 2 := by
  rw [stuff_length, length_concat_cks]

theorem stuff_block_ne_zero (hp : p.length ≤ 11) : ∀ x ∈ stuff (p ++ [cks p]), x ≠ 0 :=
  stuff_ne_zero (by rw [length_concat_cks]; omega)

theorem unstuff_stuff_block (hp : p.length ≤ 11) : unstuff (stuff (p ++ [cks p])) = some (p ++ [cks p]) :=
  unstuff_stuff (by rw [length_concat_cks]; omega)

/-- A frame on an empty buffer is stored without an event up to its delimiter, which judges the stuffed block. -/
theorem answers_frame {t : State} (hempty : s.rxBuf = []) (hp : p.length ≤ 11)
    (hend : pushDelimiter (s.setRx (stuff (p ++ [cks p]))) = t) :
    Answers s (frameOf p) (List.replicate (p.length + 2) (event .none) ++ [t.result]) t := by
  have h := answers_of_empty hempty (stuff_block_ne_zero hp) (by rw [stuff_block_length]; omega)
  rwa [stuff_block_length, hend] at h

theorem answers_frame_deliver (hempty : s.rxBuf = []) (hp : p.length ≤ 11)
    (hlong : s.params.minBlock ≤ p.length + 1) :
    Answers s (frameOf p) (List.replicate (p.length + 2) (event .none) ++ [event (.deliver p)])
      { s with result := event (.deliver p) } := by
  refine answers_frame (t := { s with result := event (.deliver p) }) hempty hp ?_
  have hB : unstuff (s.setRx (stuff (p ++ [cks p]))).rxBuf = some (p ++ [cks p]) := unstuff_stuff_block hp
  rw [pushDelimiter_of_good (rxLen_ne_zero_of_unstuff hB) (check_of_long hB (sumBytes_concat_cks p) hlong),
    State.setRx_setRx, setRx_nil hempty]
  rfl

theorem answers_frame_short (hempty : s.rxBuf = []) (hp : p.length ≤ 11)
    (hshort : p.length + 1 < s.params.minBlock) (hcount : s.cntShort < 2 ^ s.params.cntW) :
    Answers s (frameOf p) (List.replicate (p.length + 2) (event .none) ++ [event (.drop .short)])
      { s with cntShort := counted s s.cntShort, result := event (.drop .short) } := by
  refine answers_frame
    (t := { s with cntShort := counted s s.cntShort, result := event (.drop .short) }) hempty hp ?_
  have hB : unstuff (s.setRx (stuff (p ++ [cks p]))).rxBuf = some (p ++ [cks p]) := unstuff_stuff_block hp
  have hlen : (p ++ [cks p]).length < s.params.minBlock := by rwa [length_concat_cks]
  rw [pushDelimiter_of_bad (rxLen_ne_zero_of_unstuff hB) (check_of_short hB (sumBytes_concat_cks p) hlen),
    takeDrop_setRx, takeDrop_short_eq hcount, ← hempty]

end

/-- Settles O28. -/
theorem frameRoundTrip : Obligations.FrameRoundTrip := by
  intro s p hempty hp
  rw [← frameOf_length p]
  refine ⟨unstuff_stuff_block hp, fun hlong => ?_, fun hshort hcount => ?_⟩
  · have h := answers_frame_deliver hempty hp hlong
    exact ⟨h.results, h.after⟩
  · have h := answers_frame_short hempty hp hshort hcount
    exact ⟨h.results, h.after⟩

/-! ### A frame after a delimiter (R82, R179) -/

/-- Settles O31: the delimiter leaves an empty buffer and the parameters as they were, so the frame that follows
is delivered. -/
theorem delimiterResynchronises : Obligations.DelimiterResynchronises := by
  intro s
  refine ⟨⟨pushDelimiter s, rfl, by simp [State.rxLen]⟩, fun p hlong hp => ?_⟩
  have hempty : (pushByte 0 s).rxBuf = [] := pushDelimiter_rxBuf s
  have h := (answers_frame_deliver hempty hp (by rwa [pushByte_params])).cons
  have hafter := h.after
  rw [List.length_cons, frameOf_length] at hafter
  exact ⟨_, hafter, rfl, congrArg List.length hempty, pushByte_pending 0 s⟩

theorem cks_cons_zero (q : Bytes) : cks (0 :: q) = cks q := by
  simp [cks]

theorem stuff_cons_zero (B : Bytes) : stuff (0 :: B) = 1 :: stuff B := by
  simp only [stuff_eq_stuffRec, stuffRec_cons_zero]
  rfl

/-- A leading zero costs its frame one code byte, which points at the next. -/
theorem frameOf_cons_zero (q : Bytes) : frameOf (0 :: q) = 1 :: frameOf q := by
  rw [frameOf, frameOf, cks_cons_zero, List.cons_append, stuff_cons_zero, List.cons_append]

theorem pushByte_zero_of_empty {s : State} (h : s.rxBuf = []) : pushByte 0 s = s.respond (.dec .idle) := by
  rw [pushByte_zero, pushDelimiter_of_empty (congrArg List.length h), setRx_nil h]

/-- Settles O30: the damaged byte is an idle delimiter, and the rest of the frame is the frame of `q`. -/
theorem lostLeadingZeroIsDelivered : Obligations.LostLeadingZeroIsDelivered := by
  intro s q hempty hq
  have hidle := pushByte_zero_of_empty hempty
  have hempty' : (pushByte 0 s).rxBuf = [] := pushDelimiter_rxBuf s
  have hlen : (0 :: frameOf q).length = q.length + 4 := by rw [List.length_cons, frameOf_length]
  rw [frameOf_cons_zero, List.set_cons_zero, ← hlen]
  refine ⟨rfl, fun hlong => ?_, fun hshort hcount => ?_⟩
  · have h := (answers_frame_deliver hempty' (p := q) (by omega) (by rwa [pushByte_params])).cons
    rw [hidle] at h
    exact ⟨h.results, h.after⟩
  · have h := (answers_frame_short hempty' (p := q) (by omega) (by rwa [pushByte_params])
      (by rwa [hidle])).cons
    rw [hidle] at h
    exact ⟨h.results, h.after⟩

/-! ### A frame with one byte altered (R80) -/

theorem sumBytes_set (v : Byte) : ∀ {b : Bytes} {i : Nat}, i < b.length →
    sumBytes (b.set i v) + (b.getD i 0).toNat = sumBytes b + v.toNat
  | x :: xs, 0, _ => by
    rw [List.set_cons_zero, List.getD_cons_zero, sumBytes_cons, sumBytes_cons]
    omega
  | x :: xs, i + 1, h => by
    have hrec := sumBytes_set v (Nat.lt_of_succ_lt_succ h)
    rw [List.set_cons_succ, List.getD_cons_succ, sumBytes_cons, sumBytes_cons]
    omega

section

variable {minBlock : Nat} {B : Bytes} {i : Nat} {v : Byte}

/-- One byte replaced by another moves the sum by less than 256 and keeps the length, so by the sum law no
block read from the altered bytes sums to 0 (R78). -/
theorem sum_ne_zero_of_altered (hB : B.length < 255) (hsum : sumBytes B % 256 = 0) (hi : i < B.length + 1)
    (hv : v ≠ (stuff B).getD i 0) {B' : Bytes} (h : unstuff ((stuff B).set i v) = some B') :
    sumBytes B' % 256 ≠ 0 := by
  have hlaw := sumBytes_of_unstuff h
  rw [List.length_set, stuff_length] at hlaw
  have hset := sumBytes_set v (b := stuff B) (i := i) (by rwa [stuff_length])
  have hstuff := sumBytes_stuff hB
  have hne : v.toNat ≠ ((stuff B).getD i 0).toNat := fun e => hv (BitVec.eq_of_toNat_eq e)
  have hlt := v.isLt
  have hlt' := ((stuff B).getD i 0).isLt
  omega

theorem check_altered (hB : B.length < 255) (hsum : sumBytes B % 256 = 0) (hi : i < B.length + 1)
    (hv : v ≠ (stuff B).getD i 0) :
    check minBlock ((stuff B).set i v) = .bad .checksumSum ∨
      check minBlock ((stuff B).set i v) = .bad .checksumChain := by
  cases h : unstuff ((stuff B).set i v) with
  | none => exact .inr (check_of_malformed h)
  | some B' => exact .inl (check_of_badSum h (sum_ne_zero_of_altered hB hsum hi hv h))

/-- An altered data byte leaves the chain as it was. -/
theorem check_altered_data (hB : B.length < 255) (hsum : sumBytes B % 256 = 0) (hi : i < B.length)
    (hdata : B.getD i 0 ≠ 0) (hv : v ≠ (stuff B).getD (i + 1) 0) :
    check minBlock ((stuff B).set (i + 1) v) = .bad .checksumSum := by
  have h := unstuff_set_data (unstuff_stuff hB) hdata v
  exact check_of_badSum h (sum_ne_zero_of_altered hB hsum (Nat.succ_lt_succ hi) hv h)

end

theorem xor_ne_self {x m : Byte} (hm : m ≠ 0) : x ^^^ m ≠ x := by
  intro h
  exact hm (by simpa using h)

theorem bit_ne_zero {k : Nat} (hk : k < 8) : BitVec.ofNat 8 (2 ^ k) ≠ 0 := by
  revert k
  decide

/-- A frame with one byte before the delimiter altered to another that is not zero, on an empty buffer: the
altered block is stored without an event and judged. -/
theorem results_altered_frame {s : State} {p : Bytes} {i : Nat} {v : Byte} {c : DropCause}
    (hempty : s.rxBuf = []) (hp : p.length ≤ 11) (hi : i < p.length + 2) (hv : v ≠ 0)
    (hbad : check s.params.minBlock ((stuff (p ++ [cks p])).set i v) = .bad c) :
    results (p.length + 3) (pushing s ((frameOf p).set i v)) =
      List.replicate (p.length + 2) (event .none) ++ [event (.drop c)] := by
  have hlen := stuff_block_length p
  have hset : (frameOf p).set i v = (stuff (p ++ [cks p])).set i v ++ [0] := by
    rw [frameOf, List.set_append_left _ _ (by rwa [hlen])]
  have hnz : ∀ x ∈ (stuff (p ++ [cks p])).set i v, x ≠ 0 := by
    intro x hx
    rcases List.mem_or_eq_of_mem_set hx with hx | rfl
    · exact stuff_block_ne_zero hp x hx
    · exact hv
  have h := (answers_of_empty hempty hnz (by rw [List.length_set, hlen]; omega)).results
  have hne : (s.setRx ((stuff (p ++ [cks p])).set i v)).rxLen ≠ 0 := by
    rw [State.setRx_rxLen, List.length_set, hlen]
    omega
  rw [pushDelimiter_of_bad hne hbad, takeDrop_result, ← hset, List.length_set, List.length_set, hlen,
    frameOf_length] at h
  exact h

/-- Settles O29: what matters of the flip is that it gives another byte. -/
theorem singleBitFlipIsCaught : Obligations.SingleBitFlipIsCaught := by
  intro s p i k hempty _ hp hi hk hne
  have hB : (p ++ [cks p]).length < 255 := by rw [length_concat_cks]; omega
  have hsum := sumBytes_concat_cks p
  have hi' : i < (p ++ [cks p]).length + 1 := by rwa [length_concat_cks]
  have hget : (frameOf p).getD i 0 = (stuff (p ++ [cks p])).getD i 0 :=
    List.getD_append _ _ _ _ (by rwa [stuff_length])
  have hother : (frameOf p).getD i 0 ^^^ BitVec.ofNat 8 (2 ^ k) ≠ (stuff (p ++ [cks p])).getD i 0 :=
    hget ▸ xor_ne_self (bit_ne_zero hk)
  refine ⟨?_, fun hpos hdata => ?_⟩
  · rcases check_altered hB hsum hi' hother with hbad | hbad
    · exact .inl (results_altered_frame hempty hp hi hne hbad)
    · exact .inr (results_altered_frame hempty hp hi hne hbad)
  · obtain ⟨j, rfl⟩ : ∃ j, i = j + 1 := ⟨i - 1, by omega⟩
    exact results_altered_frame hempty hp hi hne
      (check_altered_data hB hsum (Nat.lt_of_succ_lt_succ hi') hdata hother)

end Sys2Proof.DecoderProofs
end

section
/-! PROOFS. The translator: what its pure functions answer, case by case, gives the results of the nine
operations and their inverse laws; what the two bridging compositions do with a message or a payload of each
class gives the effects of the arrivals, of which every one is bridged. -/

namespace Sys2Proof.TranslatorProofs

open Sys2Proof.Machine Sys2Proof.Safety Sys2Proof.StateProofs Sys2Proof.EncodingProofs
open Sys2Proof.EncoderProofs Sys2Proof.MemoryProofs Sys2Proof.DecoderProofs

/-! ### Standard ids (R91 to R93) -/

section

variable {w : SidW} {opc : BitVec Config.opcW} {sid : Nat}

theorem stdPack_of_opc_reserved (hopc : ¬(1 ≤ opc.toNat ∧ opc.toNat ≤ 4)) :
    stdPack w opc sid = .error .opcReserved := by
  have hreserved : isRuntimeOpc opc = false := by rwa [← Bool.not_eq_true, isRuntimeOpc_iff]
  rw [stdPack, hreserved]
  rfl

theorem stdPack_of_sid_range (hopc : 1 ≤ opc.toNat ∧ opc.toNat ≤ 4) (hsid : sid = 0 ∨ 2 ^ w.bits - 1 < sid) :
    stdPack w opc sid = .error .sidRange := by
  rw [stdPack, (isRuntimeOpc_iff opc).mpr hopc, if_neg (by decide), if_pos hsid]

theorem stdPack_of_fits (hopc : 1 ≤ opc.toNat ∧ opc.toNat ≤ 4) (hpos : 1 ≤ sid) (hle : sid ≤ 2 ^ w.bits - 1) :
    stdPack w opc sid = .ok (stdIdOf w opc sid) := by
  rw [stdPack, (isRuntimeOpc_iff opc).mpr hopc, if_neg (by decide), if_neg (by omega)]

/-- The largest short id as a strict bound, the form in which the lemmas about ids take it. -/
theorem sid_lt_of_le (hle : sid ≤ 2 ^ w.bits - 1) : sid < 2 ^ w.bits :=
  Nat.lt_of_le_pred (Nat.two_pow_pos _) hle

end

theorem stdUnpack_sid_lt (w : SidW) (id : BitVec Config.stdW) : (stdUnpack w id).sid.toNat < 2 ^ w.bits := by
  rw [stdUnpack_sid_toNat]
  exact Nat.mod_lt _ (Nat.two_pow_pos _)

theorem stdUnpack_unknown_iff_div (w : SidW) (id : BitVec Config.stdW) : (stdUnpack w id).cls = .unknown ↔
    ¬(1 ≤ id.toNat / 2 ^ w.bits ∧ id.toNat / 2 ^ w.bits ≤ 4) := by
  rw [← stdUnpack_runtime_iff_div]
  cases (stdUnpack w id).cls <;> decide

/-- Settles O36. -/
theorem stdPackResult : Obligations.StdPackResult := by
  intro s opc sid
  refine ⟨fun hopc => ?_, fun hlo hhi hsid => ?_, fun hlo hhi hpos hle => ?_⟩
  · rw [exec, execStdPack, stdPack_of_opc_reserved hopc]
    rfl
  · rw [exec, execStdPack, stdPack_of_sid_range ⟨hlo, hhi⟩ hsid]
    rfl
  · refine ⟨stdIdOf s.params.sidW opc sid, stdIdOf_toNat _ _ _ (sid_lt_of_le hle), ?_⟩
    rw [exec, execStdPack, stdPack_of_fits ⟨hlo, hhi⟩ hpos hle]
    rfl

/-- Settles O37. -/
theorem stdUnpackResult : Obligations.StdUnpackResult := by
  intro s id
  refine ⟨stdUnpack s.params.sidW id, rfl, stdUnpack_sid_toNat _ _, stdUnpack_opc_toNat _ _, ?_,
    stdUnpack_runtime_iff _ _⟩
  rw [stdUnpack_rsv_toNat, Nat.div_div_eq_div_mul, Nat.pow_add]

/-- What is packed is an id whose fields unpack again (R93). -/
theorem stdPack_stdUnpack {w : SidW} {opc : BitVec Config.opcW} {sid : BitVec 6}
    (hopc : 1 ≤ opc.toNat ∧ opc.toNat ≤ 4) (hpos : 1 ≤ sid.toNat) (hle : sid.toNat ≤ 2 ^ w.bits - 1) :
    ∃ id, stdPack w opc sid.toNat = .ok id ∧ stdUnpack w id = ⟨.runtime, opc, sid, 0⟩ :=
  ⟨_, stdPack_of_fits hopc hpos hle, stdUnpack_stdIdOf hopc (sid_lt_of_le hle)⟩

/-- Settles O38: the unpacked fields meet the conditions of packing, the opcode by the class and the short id
by its width. -/
theorem stdPackUnpackInverse : Obligations.StdPackUnpackInverse := by
  refine ⟨fun w opc sid hlo hhi hpos hle => stdPack_stdUnpack ⟨hlo, hhi⟩ hpos hle, fun w id hcls hsid => ?_⟩
  have hopc := ((stdUnpack_runtime_iff w id).mp hcls).2
  have hpos : 1 ≤ (stdUnpack w id).sid.toNat := Nat.pos_of_ne_zero fun h => hsid (BitVec.eq_of_toNat_eq h)
  rw [stdPack_of_fits hopc hpos (Nat.le_sub_one_of_lt (stdUnpack_sid_lt w id)), stdIdOf_stdUnpack hcls]

/-! ### Extended ids (R94 to R96) -/

theorem tagKind_ne_unknown_iff_mem (tag : BitVec Config.tagW) :
    tagKind tag ≠ .unknown ↔ tag.toNat ∈ [0x1F, 0x1E, 0x1D, 0x1C, 0x1B, 0x00, 0x01] := by
  have htag := tag_lt tag
  simp only [ne_eq, tagKind_eq_unknown_iff, List.mem_cons, List.not_mem_nil, or_false]
  omega

theorem tagKind_kindTag (kind : ExtKind) : tagKind (kindTag kind) = kind := by
  cases kind <;> rfl

/-- A known kind is named by its own tag and no other (R51). -/
theorem tagKind_eq_iff {tag : BitVec Config.tagW} {kind : ExtKind} (hkind : kind ≠ .unknown) :
    tagKind tag = kind ↔ tag.toNat = (kindTag kind).toNat := by
  constructor
  · rintro rfl
    rw [kindTag_tagKind hkind]
  · intro h
    rw [BitVec.eq_of_toNat_eq h, tagKind_kindTag]

theorem extPack_of_unknown {tag : BitVec Config.tagW} (h : tagKind tag = .unknown)
    (arg : BitVec Config.argW) : extPack tag arg = .error .tagReserved := if_pos h

theorem extPack_of_known {tag : BitVec Config.tagW} (h : tagKind tag ≠ .unknown)
    (arg : BitVec Config.argW) : extPack tag arg = .ok (extIdOf tag arg) := if_neg h

/-- Settles O39. -/
theorem extPackResult : Obligations.ExtPackResult := by
  intro s tag arg
  rw [← tagKind_ne_unknown_iff_mem]
  refine ⟨fun hknown => ⟨extIdOf tag arg, extIdOf_toNat tag arg, ?_⟩, fun hreserved => ?_⟩
  · rw [exec, execExtPack, extPack_of_known hknown]
    rfl
  · rw [exec, execExtPack, extPack_of_unknown (not_not.mp hreserved)]
    rfl

/-- Settles O40. -/
theorem extUnpackResult : Obligations.ExtUnpackResult := by
  intro s id
  exact ⟨extUnpack id, rfl, extUnpack_tag_toNat id, extUnpack_arg_toNat id,
    tagKind_eq_iff (by decide), tagKind_eq_iff (by decide), tagKind_eq_iff (by decide),
    tagKind_eq_iff (by decide), tagKind_eq_iff (by decide), tagKind_eq_iff (by decide),
    tagKind_eq_iff (by decide), tagKind_eq_unknown_iff _⟩

/-- Settles O41. -/
theorem extPackUnpackInverse : Obligations.ExtPackUnpackInverse := by
  refine ⟨fun tag arg hknown => ⟨_, extPack_of_known hknown arg, extUnpack_extIdOf tag arg⟩,
    fun id hknown => ?_⟩
  exact (extPack_of_known hknown _).trans (congrArg _ (extIdOf_extUnpack id))

/-! ### The serial payload (R97 to R99, R102) -/

/-- The two id bytes of an id are the two bytes it is the sum of (R97). -/
theorem serCanPayload_of_bytes {id : BitVec Config.stdW} {hi lo : Byte}
    (h : id.toNat = hi.toNat * 256 + lo.toNat) (data : Bytes) : serCanPayload id data = hi :: lo :: data := by
  have hlo := lo.isLt
  have hdiv : id.toNat / 256 = hi.toNat := by omega
  have hmod : id.toNat % 256 = lo.toNat := by omega
  rw [serCanPayload, idBytes_eq, hdiv, hmod, BitVec.ofNat_toNat, BitVec.ofNat_toNat,
    BitVec.setWidth_eq, BitVec.setWidth_eq]
  rfl

theorem serJoin_std (id : BitVec Config.stdW) (data : Bytes) :
    serJoin ⟨.std id, data⟩ = .ok (serCanPayload id data) := rfl

/-- Settles O42. -/
theorem serJoinResult : Obligations.SerJoinResult := by
  refine fun s data => ⟨fun id => rfl, fun id hi lo h => ?_⟩
  rw [exec, execSerJoin, serJoin_std, serCanPayload_of_bytes h]
  rfl

section

variable {hi lo : Byte} {rest : Bytes}

theorem serSplit_of_length_lt {p : Bytes} (h : p.length < 2) : serSplit p = .unknown .noId := by
  match p, h with
  | [], _ => rfl
  | [_], _ => rfl

theorem serSplit_of_reserved (hhi : hi ≠ 0xFF) (hid : 0x07FF < hi.toNat * 256 + lo.toNat) :
    serSplit (hi :: lo :: rest) = .unknown .idReserved := by
  rw [← id16_eq] at hid
  exact (if_neg hhi).trans (if_pos hid)

/-- The bound on the id leaves no room for the byte 0xFF in front. -/
theorem serSplit_of_tooLong (hid : hi.toNat * 256 + lo.toNat ≤ 0x07FF) (hrest : 8 < rest.length) :
    serSplit (hi :: lo :: rest) = .unknown .dataTooLong := by
  have hhi : hi ≠ Config.hostSentinel := by
    rintro rfl
    have hff : Config.hostSentinel.toNat = 255 := rfl
    omega
  rw [← id16_eq] at hid
  exact (if_neg hhi).trans ((if_neg (Nat.not_lt.mpr hid)).trans (if_pos hrest))

end

/-- Settles O43. -/
theorem serSplitResult : Obligations.SerSplitResult := by
  refine fun s p => ⟨fun hp => ?_, ?_⟩
  · rw [exec, execSerSplit, serSplit_of_length_lt hp]
    rfl
  · rintro hi lo rest rfl
    refine ⟨?_, fun hhi hid => ?_, fun hid hrest => ?_, fun id hid hrest => ?_⟩
    · rintro rfl
      rfl
    · rw [exec, execSerSplit, serSplit_of_reserved hhi hid]
      rfl
    · rw [exec, execSerSplit, serSplit_of_tooLong hid hrest]
      rfl
    · rw [exec, execSerSplit, ← serCanPayload_of_bytes hid, serSplit_serCanPayload id hrest]
      rfl

/-- Settles O44: the third law is the first after that of the standard ids. -/
theorem serialInverse : Obligations.SerialInverse := by
  refine ⟨fun id data hdata => ⟨_, serJoin_std id data, serSplit_serCanPayload id hdata⟩,
    fun p id data h => ?_, fun w opc sid data hlo hhi hpos hle hdata => ?_⟩
  · rw [serJoin_std, ← eq_serCanPayload_of_serSplit h]
  · obtain ⟨id, hpack, hunpack⟩ := stdPack_stdUnpack ⟨hlo, hhi⟩ hpos hle
    exact ⟨id, _, id, hpack, serJoin_std id data, serSplit_serCanPayload id hdata, hunpack⟩

/-- Settles O45: an 11-bit id has at most 3 bits in its high byte. -/
theorem hostExactlyWhenSentinel : Obligations.HostExactlyWhenSentinel := by
  refine ⟨fun b0 b1 rest => ⟨?_, ?_⟩, ?_⟩
  · rintro ⟨sub, args, h⟩
    exact (List.cons.inj (eq_serHostPayload_of_serSplit h)).1
  · rintro rfl
    exact ⟨b1, rest, rfl⟩
  · rintro ⟨id | id, data⟩ p h
    · have hid := stdId_lt id
      rw [serJoin_std, serCanPayload, idBytes_eq] at h
      cases h
      refine ⟨_, _, rfl, ?_⟩
      rw [BitVec.toNat_ofNat]
      omega
    · cases h

/-! ### Host commands (R100, R101) -/

theorem hostClassify_ne_unknown {sub : Byte} (h : sub = 0x01 ∨ sub = 0x02 ∨ sub = 0xFF) :
    hostClassify sub ≠ .hostUnknown := by
  rcases h with rfl | rfl | rfl <;> decide

theorem hostBuild_of_unknown {sub : Byte} (h : hostClassify sub = .hostUnknown) (args : Bytes) :
    hostBuild sub args = .error .subReserved := if_pos h

theorem hostBuild_of_tooLong {sub : Byte} {args : Bytes} (h : hostClassify sub ≠ .hostUnknown)
    (hargs : 9 < args.length) : hostBuild sub args = .error .tooLong :=
  (if_neg h).trans (if_pos hargs)

theorem hostBuild_of_le {sub : Byte} {args : Bytes} (h : hostClassify sub ≠ .hostUnknown)
    (hargs : args.length ≤ 9) : hostBuild sub args = .ok (serHostPayload sub args) :=
  (if_neg h).trans (if_neg (Nat.not_lt.mpr hargs))

/-- Settles O46. -/
theorem hostBuildResult : Obligations.HostBuildResult := by
  intro s sub args
  refine ⟨fun h1 h2 h3 => ?_, fun hsub => ⟨fun hargs => ?_, fun hargs => ?_⟩⟩
  · rw [exec, execHostBuild, hostBuild_of_unknown ((hostClassify_eq_unknown_iff sub).mpr ⟨h1, h2, h3⟩)]
    rfl
  · rw [exec, execHostBuild, hostBuild_of_tooLong (hostClassify_ne_unknown hsub) hargs]
    rfl
  · rw [exec, execHostBuild, hostBuild_of_le (hostClassify_ne_unknown hsub) hargs]
    rfl

/-- Settles O47. -/
theorem hostClassifyResult : Obligations.HostClassifyResult := by
  refine fun s => ⟨rfl, rfl, rfl, fun sub h1 h2 h3 => ?_⟩
  rw [exec, execHostClassify, (hostClassify_eq_unknown_iff sub).mpr ⟨h1, h2, h3⟩]
  rfl

/-! ### Routing (R104) -/

theorem ptLookup_eq_true_iff (s : State) (sid : BitVec 6) :
    s.ptLookup sid = true ↔ sid ≠ 0 ∧ s.ptPresent.getLsbD sid.toNat = true := by
  simp [State.ptLookup]

theorem ptLookup_eq_false_iff (s : State) (sid : BitVec 6) :
    s.ptLookup sid = false ↔ sid = 0 ∨ s.ptPresent.getLsbD sid.toNat = false := by
  rw [← Bool.not_eq_true, ptLookup_eq_true_iff, not_and_or, not_not, Bool.not_eq_true]

section

variable {pt : BitVec 6 → Bool} {u : StdFields}

theorem rtRoute_of_row (hcls : u.cls = .runtime) (hpt : pt u.sid = true) (data : Bytes) :
    rtRoute pt u data = .event u.sid u.opc data := by
  rw [rtRoute, if_neg (not_not.mpr hcls), if_pos hpt]

theorem rtRoute_of_class (hcls : u.cls ≠ .runtime) (data : Bytes) : rtRoute pt u data = .noop :=
  if_pos hcls

/-- Without a row the class makes no difference. -/
theorem rtRoute_of_no_row (hpt : pt u.sid = false) (data : Bytes) : rtRoute pt u data = .noop := by
  simp [rtRoute, hpt]

end

/-- Settles O48. -/
theorem rtRouteResult : Obligations.RtRouteResult := by
  intro s u data
  refine ⟨fun hcls hsid hpt => ?_, fun h => ?_⟩
  · rw [exec, execRtRoute, rtRoute_of_row hcls ((ptLookup_eq_true_iff s u.sid).mpr ⟨hsid, hpt⟩)]
    rfl
  · have hroute : rtRoute s.ptLookup u data = .noop := by
      rcases h with hcls | hpt
      · exact rtRoute_of_class hcls data
      · exact rtRoute_of_no_row ((ptLookup_eq_false_iff s u.sid).mpr hpt) data
    rw [exec, execRtRoute, hroute]
    rfl

/-! ### `BRIDGE.S2C`, class by class (R106) -/

/-- A drop counted in the words of R73, which the invariant allows. -/
theorem dropUnknown_eq {s : State} (hinv : Inv s) (res : Result) : dropUnknown res s =
    { s with cntUnknown := counted s s.cntUnknown, result := some res } := by
  rw [← satInc_eq_counted (v := s.cntUnknown) (hinv.2 .unknown)]
  rfl

section

variable {p : Bytes} {s : State}

theorem bridgeS2C_of_runtime {id : BitVec Config.stdW} {data : Bytes} (hp : serSplit p = .can id data)
    (hcls : (stdUnpack s.params.sidW id).cls = .runtime) :
    bridgeS2C p s = (s.transmit ⟨.std id, data⟩).respond (.s2c (.sent s.txOk)) := by
  simp [bridgeS2C, hp, hcls]

theorem bridgeS2C_of_class_unknown {id : BitVec Config.stdW} {data : Bytes} (hp : serSplit p = .can id data)
    (hcls : (stdUnpack s.params.sidW id).cls = .unknown) : bridgeS2C p s = dropUnknown (.s2c .dropped) s := by
  simp [bridgeS2C, hp, hcls]

theorem bridgeS2C_of_hostCmd {sub : Byte} {args : Bytes} (hp : serSplit p = .host sub args)
    (hsub : hostClassify sub ≠ .hostUnknown) :
    bridgeS2C p s = s.respond (.s2c (.hostCmd (hostClassify sub) args)) := by
  simp [bridgeS2C, hp, hsub]

theorem bridgeS2C_of_sub_reserved {sub : Byte} {args : Bytes} (hp : serSplit p = .host sub args)
    (hsub : hostClassify sub = .hostUnknown) : bridgeS2C p s = dropUnknown (.s2c .dropped) s := by
  simp [bridgeS2C, hp, hsub]

theorem bridgeS2C_of_unknown {why : UnknownWhy} (hp : serSplit p = .unknown why) :
    bridgeS2C p s = dropUnknown (.s2c .dropped) s := by
  simp [bridgeS2C, hp]

end

/-- An instruction that is the arrival of a payload runs `BRIDGE.S2C` on it. -/
theorem exec_of_encode_payload {i : Instr} {s : State} {p : Bytes} (h : encode s.params i = .payload p) :
    exec i s = .next (bridgeS2C p s) := by
  cases i
  case sercan | serhost | numPnls | pnlInfo | reset =>
    cases h
    rfl
  all_goals cases h

theorem exec_sercan (id : BitVec Config.stdW) (data : Bytes) (s : State) :
    exec (.sercan id data) s = .next (bridgeS2C (serCanPayload id data) s) :=
  exec_of_encode_payload rfl

/-- Settles O51. -/
theorem sercanSentOrDropped : Obligations.SercanSentOrDropped := by
  intro s id data hinv hdata
  have hsplit := serSplit_serCanPayload id hdata
  rw [exec_sercan]
  refine ⟨fun hlo hhi => ?_, fun hid => ?_⟩
  · rw [bridgeS2C_of_runtime hsplit ((stdUnpack_runtime_iff_div _ id).mpr ⟨hlo, hhi⟩)]
    rfl
  · rw [bridgeS2C_of_class_unknown hsplit ((stdUnpack_unknown_iff_div _ id).mpr hid), dropUnknown_eq hinv]

/-- The arrival of a host command with a known sub-command hands it over. -/
theorem exec_of_encode_hostCmd {i : Instr} {s : State} (sub : Byte) {args : Bytes}
    (hi : encode s.params i = .payload (serHostPayload sub args)) (hsub : hostClassify sub ≠ .hostUnknown) :
    exec i s = .next (s.respond (.s2c (.hostCmd (hostClassify sub) args))) := by
  rw [exec_of_encode_payload hi, bridgeS2C_of_hostCmd (serSplit_serHostPayload sub args) hsub]

/-- Settles O52. -/
theorem hostCommandsHandedOver : Obligations.HostCommandsHandedOver :=
  fun _ _ => ⟨exec_of_encode_hostCmd 0x01 rfl (by decide), exec_of_encode_hostCmd 0x02 rfl (by decide),
    exec_of_encode_hostCmd 0xFF rfl (by decide)⟩

/-- Settles O53. -/
theorem reservedHostCommandDropped : Obligations.ReservedHostCommandDropped := by
  intro s sub args hinv h1 h2 h3
  have hsub := (hostClassify_eq_unknown_iff sub).mpr ⟨h1, h2, h3⟩
  rw [exec_of_encode_payload (p := serHostPayload sub args) rfl,
    bridgeS2C_of_sub_reserved (serSplit_serHostPayload sub args) hsub, dropUnknown_eq hinv]

/-! ### `BRIDGE.C2S`, class by class (R107) -/

section

variable {s : State}

theorem bridgeC2S_of_kind_known {id : BitVec Config.extW} (hkind : (extUnpack id).kind ≠ .unknown)
    (data : Bytes) :
    bridgeC2S ⟨.ext id, data⟩ s = s.respond (.c2s (.handLocal (extUnpack id) data)) := by
  simp [bridgeC2S, hkind]

theorem bridgeC2S_of_kind_unknown {id : BitVec Config.extW} (hkind : (extUnpack id).kind = .unknown)
    (data : Bytes) : bridgeC2S ⟨.ext id, data⟩ s = dropUnknown (.c2s .dropped) s := by
  simp [bridgeC2S, hkind]

theorem bridgeC2S_of_class_unknown {id : BitVec Config.stdW}
    (hcls : (stdUnpack s.params.sidW id).cls = .unknown) (data : Bytes) :
    bridgeC2S ⟨.std id, data⟩ s = dropUnknown (.c2s .dropped) s := by
  simp [bridgeC2S, hcls]

theorem bridgeC2S_of_row {id : BitVec Config.stdW} {u : StdFields} (hu : stdUnpack s.params.sidW id = u)
    (hcls : u.cls = .runtime) (hpt : s.ptLookup u.sid = true) (data : Bytes) :
    bridgeC2S ⟨.std id, data⟩ s = forwardToHost id data (.event u.sid u.opc data) s := by
  simp [bridgeC2S, hu, hcls, rtRoute_of_row hcls hpt]

theorem bridgeC2S_of_no_row {id : BitVec Config.stdW} {u : StdFields} (hu : stdUnpack s.params.sidW id = u)
    (hcls : u.cls = .runtime) (hpt : s.ptLookup u.sid = false) (data : Bytes) :
    bridgeC2S ⟨.std id, data⟩ s = s.respond (.c2s .noop) := by
  simp [bridgeC2S, hu, hcls, rtRoute_of_no_row hpt]

end

/-- An instruction that is the arrival of a CAN message runs `BRIDGE.C2S` on it. -/
theorem exec_of_encode_canRx {i : Instr} {s : State} {m : CanMsg} (h : encode s.params i = .canRx m) :
    exec i s = .next (bridgeC2S m s) := by
  cases i
  case led | adc | switch | quadenc | detect1 | detect2 | detect3 | detect4 | ackId | broadcast | firmware =>
    cases h
    rfl
  all_goals cases h

/-- Settles O49: the id of the arrival unpacks to the opcode and the short id, which are then routed. -/
theorem runtimeMessageForwardedOrNoop : Obligations.RuntimeMessageForwardedOrNoop := by
  intro s i opc sid data hi lo hrow hsid hdata hbytes
  obtain ⟨rfl, hopc⟩ : i = runtimeInstr opc sid data ∧ 1 ≤ opc.toNat ∧ opc.toNat ≤ 4 := by
    rcases hrow with ⟨rfl, rfl⟩ | ⟨rfl, rfl⟩ | ⟨rfl, rfl⟩ | ⟨rfl, rfl⟩ <;> exact ⟨rfl, by decide⟩
  have hu := stdUnpack_stdIdOf hopc hsid
  have hpayload := serCanPayload_of_bytes ((stdIdOf_toNat _ opc _ hsid).trans hbytes.symm) data
  rw [exec_of_encode_canRx (encode_runtimeInstr s.params hopc sid data)]
  refine ⟨fun hne hpt => ?_, fun hnone => ?_⟩
  · rw [bridgeC2S_of_row hu rfl ((ptLookup_eq_true_iff s sid).mpr ⟨hne, hpt⟩), forwardToHost_frame hdata,
      hpayload]
    rfl
  · rw [bridgeC2S_of_no_row hu rfl ((ptLookup_eq_false_iff s sid).mpr hnone)]
    rfl

/-- Settles O50: the id of the arrival unpacks to the tag, its kind and the argument. -/
theorem extendedMessageStaysLocal : Obligations.ExtendedMessageStaysLocal := by
  intro s i kind tag arg data hrow
  obtain ⟨hi, rfl, hknown⟩ : encode s.params i = .canRx ⟨.ext (extIdOf tag arg), data⟩ ∧
      tagKind tag = kind ∧ tagKind tag ≠ .unknown := by
    rcases hrow with ⟨rfl, rfl, rfl⟩ | ⟨rfl, rfl, rfl⟩ | ⟨rfl, rfl, rfl⟩ | ⟨rfl, rfl, rfl⟩ |
      ⟨rfl, rfl, rfl⟩ | ⟨rfl, rfl, rfl⟩ | ⟨rfl, rfl, rfl⟩ <;> exact ⟨rfl, by decide, by decide⟩
  have hu := extUnpack_extIdOf tag arg
  rw [exec_of_encode_canRx hi, bridgeC2S_of_kind_known (by rw [hu]; exact hknown), hu]
  rfl

/-! ### Every arrival is bridged (log entry 4) -/

theorem wellFormed_runtimeInstr {pr : Params} (opc : BitVec Config.opcW) {sid : BitVec 6} {data : Bytes}
    (hsid : sidFits pr.sidW sid = true) (hdata : canDataOk data = true) :
    (runtimeInstr opc sid data).wellFormed pr = true := by
  unfold runtimeInstr
  split_ifs <;> exact Bool.and_eq_true_iff.mpr ⟨hsid, hdata⟩

theorem decodeExt_of_known (pr : Params) {id : BitVec Config.extW} {data : Bytes}
    (hkind : (extUnpack id).kind ≠ .unknown) (hdata : canDataOk data = true) :
    ∃ i, decodeExt id data = .ok i ∧ i.wellFormed pr = true := by
  cases hk : (extUnpack id).kind
  case unknown => exact absurd hk hkind
  all_goals
    simp only [decodeExt, hk]
    exact ⟨_, rfl, hdata⟩

/-- The check never rejects what is read from `can_rx`: a short id that was unpacked fits its field, and the
length of the data is tested before. -/
theorem wellFormed_of_decodeCan {pr : Params} {m : CanMsg} {i : Instr} (h : decodeCan pr.sidW m = .ok i) :
    i.wellFormed pr = true := by
  have hdata := canDataOk_of_decodeCan h
  obtain ⟨id | id, data⟩ := m
  · rw [decodeCan_std hdata] at h
    cases hcls : (stdUnpack pr.sidW id).cls with
    | unknown =>
      rw [decodeStd_of_unknown hcls] at h
      cases h
    | runtime =>
      rw [decodeStd_of_runtime hcls] at h
      cases h
      exact wellFormed_runtimeInstr _ ((sidFits_iff _ _).mpr (stdUnpack_sid_lt _ id)) hdata
  · rw [decodeCan_ext hdata] at h
    by_cases hkind : (extUnpack id).kind = .unknown
    · rw [decodeExt_of_unknown hkind] at h
      cases h
    · obtain ⟨j, hj, hwf⟩ := decodeExt_of_known pr hkind hdata
      cases h.symm.trans hj
      exact hwf

theorem length_le_of_serSplit {p : Bytes} {id : BitVec Config.stdW} {data : Bytes}
    (h : serSplit p = .can id data) : data.length ≤ 8 := by
  unfold serSplit at h
  split at h
  · cases h
  · cases h
  · split_ifs at h with _ _ hlen
    cases h
    exact Nat.not_lt.mp hlen

/-- A payload of a class is a row of the table and passes the check: `SER.SPLIT` has tested the length of the
data, and `SERHOST` stands for the sub-commands without a row of their own. -/
theorem decodePayload_of_known (pr : Params) {p : Bytes} (h : ∀ why, serSplit p ≠ .unknown why) :
    ∃ i, decodePayload p = .ok i ∧ i.wellFormed pr = true := by
  cases hp : serSplit p with
  | can id data =>
    simp only [decodePayload, hp]
    exact ⟨_, rfl, (canDataOk_iff data).mpr (length_le_of_serSplit hp)⟩
  | host sub args =>
    cases hsub : hostClassify sub <;> simp only [decodePayload, hp, hsub]
    case hostUnknown => exact ⟨_, rfl, beq_iff_eq.mpr hsub⟩
    all_goals exact ⟨_, rfl, rfl⟩
  | unknown why => exact absurd hp (h why)

/-- A message that the decoder rejects is dropped, as `BRIDGE.C2S` drops it. -/
theorem takeRejected_of_decodeCan {s : State} {m : CanMsg} {e : Reject} (hdata : m.data.length ≤ 8)
    (h : decodeCan s.params.sidW m = .error e) : takeRejected e s = .next (bridgeC2S m s) := by
  obtain ⟨id | id, data⟩ := m
  · rw [decodeCan_std ((canDataOk_iff data).mpr hdata)] at h
    cases hcls : (stdUnpack s.params.sidW id).cls with
    | runtime =>
      rw [decodeStd_of_runtime hcls] at h
      cases h
    | unknown =>
      rw [decodeStd_of_unknown hcls] at h
      cases h
      rw [bridgeC2S_of_class_unknown hcls]
      rfl
  · rw [decodeCan_ext ((canDataOk_iff data).mpr hdata)] at h
    by_cases hkind : (extUnpack id).kind = .unknown
    · rw [decodeExt_of_unknown hkind] at h
      cases h
      rw [bridgeC2S_of_kind_unknown hkind]
      rfl
    · obtain ⟨j, hj, -⟩ := decodeExt_of_known s.params hkind ((canDataOk_iff data).mpr hdata)
      cases h.symm.trans hj

/-- A step on a raw reading that passes the check. -/
theorem step_of_decodeRaw_ok {s : State} {r : Request} {rest : List Request} {i : Instr}
    (hp : s.pending = r :: rest) (hd : decodeRaw s.params r.txn = .ok i) (hwf : i.wellFormed s.params = true) :
    step s = exec i (s.take r rest) :=
  step_of_decode_ok hp ((decode_eq_ok_iff _ _ i).mpr ⟨hd, hwf⟩)

/-- Settles O8: what the decoder reads encodes to what arrived and so runs the bridge on it; what it rejects,
the bridge drops. A payload is rejected exactly when `SER.SPLIT` does not know it. -/
theorem stepBridgesEveryMessage : Obligations.StepBridgesEveryMessage := by
  refine fun s pt ok rest => ⟨fun m hdata hp => ?_, fun p hp => ?_⟩
  · cases hd : decodeCan s.params.sidW m with
    | ok i =>
      rw [step_of_decodeRaw_ok hp hd (wellFormed_of_decodeCan hd)]
      exact exec_of_encode_canRx (encode_of_decodeCan hd)
    | error e =>
      rw [step_of_decodeRaw_error hp hd]
      exact takeRejected_of_decodeCan hdata hd
  · by_cases hunknown : ∃ why, serSplit p = .unknown why
    · obtain ⟨why, hwhy⟩ := hunknown
      rw [step_of_decodeRaw_error hp (decodeRaw_payload_unknown s.params hwhy), bridgeS2C_of_unknown hwhy]
      rfl
    · obtain ⟨i, hd, hwf⟩ := decodePayload_of_known s.params (not_exists.mp hunknown)
      rw [step_of_decodeRaw_ok hp hd hwf]
      exact exec_of_encode_payload (encode_of_decodePayload _ hd)

/-! ### What counts as unknown (R109) -/

theorem takeDrop_cntUnknown (c : DropCause) (s : State) : (takeDrop c s).cntUnknown = s.cntUnknown := by
  cases c <;> rfl

theorem pushData_cntUnknown (b : Byte) (s : State) : (pushData b s).cntUnknown = s.cntUnknown := by
  rcases pushData_cases b s with ⟨-, e⟩ | ⟨-, e⟩ <;> rw [e]
  · rfl
  · exact takeDrop_cntUnknown .overflow s

theorem pushDelimiter_cntUnknown (s : State) : (pushDelimiter s).cntUnknown = s.cntUnknown := by
  rcases pushDelimiter_cases s with ⟨-, e⟩ | ⟨c, -, -, e⟩ | ⟨p, -, -, e⟩ <;> rw [e]
  · rfl
  · exact takeDrop_cntUnknown c s
  · rfl

/-- Settles O55: of everything a meaning can do, only `RST` and the two drops of the bridges write the
counter. -/
theorem onlyDroppedCountsUnknown : Obligations.OnlyDroppedCountsUnknown := by
  intro s t i hexec hmoved
  rcases exec_cases i s t hexec with
    ⟨hi, -⟩ | ⟨f, r, rfl⟩ | ⟨m, r, rfl⟩ | ⟨b, -, rfl⟩ | rfl | rfl | rfl
  · exact .inl hi
  · exact absurd rfl hmoved
  · exact absurd rfl hmoved
  · exact absurd (pushData_cntUnknown b s) hmoved
  · exact absurd (pushDelimiter_cntUnknown s) hmoved
  · exact .inr (.inl (dropUnknown_result _ s))
  · exact .inr (.inr (dropUnknown_result _ s))

/-! ### The transmit result (R105, R157) -/

/-- The state with the controller's answer on the port `tx_ok`. -/
def withTxOk (s : State) (ok : Bool) : State := { s with txOk := ok }

/-! No shared operation but `BRIDGE.S2C` reads the port, so each of them commutes with setting it. -/

section

variable (s : State) (ok : Bool)

theorem takeDrop_withTxOk (c : DropCause) : takeDrop c (withTxOk s ok) = withTxOk (takeDrop c s) ok := by
  cases c <;> rfl

theorem pushData_withTxOk (b : Byte) : pushData b (withTxOk s ok) = withTxOk (pushData b s) ok := by
  unfold pushData
  rw [apply_ite (withTxOk · ok), ← takeDrop_withTxOk]
  rfl

theorem pushDelimiter_withTxOk : pushDelimiter (withTxOk s ok) = withTxOk (pushDelimiter s) ok := by
  by_cases hempty : s.rxLen = 0
  · rw [pushDelimiter_of_empty (s := withTxOk s ok) hempty, pushDelimiter_of_empty hempty]
    rfl
  · cases hc : check s.params.minBlock s.rxBuf with
    | bad c =>
      rw [pushDelimiter_of_bad (s := withTxOk s ok) hempty hc, pushDelimiter_of_bad hempty hc,
        takeDrop_withTxOk]
    | good p =>
      rw [pushDelimiter_of_good (s := withTxOk s ok) hempty hc, pushDelimiter_of_good hempty hc]
      rfl

theorem pushByte_withTxOk (b : Byte) : pushByte b (withTxOk s ok) = withTxOk (pushByte b s) ok := by
  by_cases hb : b = 0
  · rw [hb, pushByte_zero, pushByte_zero, pushDelimiter_withTxOk]
  · rw [pushByte_of_ne_zero hb, pushByte_of_ne_zero hb, pushData_withTxOk]

theorem respondExcept_withTxOk {α : Type} (wrap : α → Result) (x : Except RefuseCause α) :
    (withTxOk s ok).respondExcept wrap x = withTxOk (s.respondExcept wrap x) ok := by
  cases x <;> rfl

theorem forwardToHost_withTxOk (id : BitVec Config.stdW) (data : Bytes) (r : RouteRes) :
    forwardToHost id data r (withTxOk s ok) = withTxOk (forwardToHost id data r s) ok := by
  unfold forwardToHost
  cases encodeFrame (serCanPayload id data) <;> rfl

theorem bridgeC2S_withTxOk (m : CanMsg) : bridgeC2S m (withTxOk s ok) = withTxOk (bridgeC2S m s) ok := by
  obtain ⟨id | id, data⟩ := m
  · cases hcls : (stdUnpack s.params.sidW id).cls with
    | unknown =>
      rw [bridgeC2S_of_class_unknown (s := withTxOk s ok) hcls, bridgeC2S_of_class_unknown hcls]
      rfl
    | runtime =>
      cases hpt : s.ptLookup (stdUnpack s.params.sidW id).sid with
      | false =>
        rw [bridgeC2S_of_no_row (s := withTxOk s ok) rfl hcls hpt, bridgeC2S_of_no_row rfl hcls hpt]
        rfl
      | true =>
        rw [bridgeC2S_of_row (s := withTxOk s ok) rfl hcls hpt, bridgeC2S_of_row rfl hcls hpt]
        exact forwardToHost_withTxOk s ok _ _ _
  · by_cases hkind : (extUnpack id).kind = .unknown
    · rw [bridgeC2S_of_kind_unknown hkind, bridgeC2S_of_kind_unknown hkind]
      rfl
    · rw [bridgeC2S_of_kind_known hkind, bridgeC2S_of_kind_known hkind]
      rfl

end

/-- An instruction that is not the arrival of a payload does not read the port. -/
theorem exec_withTxOk {i : Instr} {s u : State} (hi : ∀ p, encode s.params i ≠ .payload p)
    (h : exec i s = .next u) (ok : Bool) : exec i (withTxOk s ok) = .next (withTxOk u ok) := by
  cases i
  case sercan | serhost | numPnls | pnlInfo | reset => exact absurd rfl (hi _)
  case led | adc | switch | quadenc | detect1 | detect2 | detect3 | detect4 | ackId | broadcast | firmware =>
    cases h
    exact congrArg _ (bridgeC2S_withTxOk s ok _)
  case encFrame p =>
    rcases Nat.lt_or_ge 11 p.length with hp | hp
    · rw [exec_encFrame_of_lt hp] at h ⊢
      cases h
      rfl
    · rw [exec_encFrame_of_le hp] at h ⊢
      cases h
      rfl
  case decPush b =>
    cases h
    exact congrArg _ (pushByte_withTxOk s ok b)
  case delim =>
    cases h
    exact congrArg _ (pushDelimiter_withTxOk s ok)
  case stdPack | extPack | serJoin | hostBuild =>
    cases h
    exact congrArg _ (respondExcept_withTxOk s ok _ _)
  case rst | cntRead | stdUnpack | extUnpack | serSplit | hostClassify | rtRoute =>
    cases h
    rfl

/-- `BRIDGE.S2C` passes the port on in the result `SENT`, and otherwise does not read it (R105). -/
theorem bridgeS2C_withTxOk (p : Bytes) (s : State) :
    (∀ ok, bridgeS2C p (withTxOk s ok) = withTxOk (bridgeS2C p s) ok) ∨
    ∃ u, ∀ ok, bridgeS2C p (withTxOk s ok) = (withTxOk u ok).respond (.s2c (.sent ok)) := by
  cases hp : serSplit p with
  | can id data =>
    cases hcls : (stdUnpack s.params.sidW id).cls with
    | runtime => exact .inr ⟨s.transmit ⟨.std id, data⟩, fun ok => bridgeS2C_of_runtime hp hcls⟩
    | unknown =>
      refine .inl fun ok => ?_
      rw [bridgeS2C_of_class_unknown (s := withTxOk s ok) hp hcls, bridgeS2C_of_class_unknown hp hcls]
      rfl
  | host sub args =>
    refine .inl fun ok => ?_
    by_cases hsub : hostClassify sub = .hostUnknown
    · rw [bridgeS2C_of_sub_reserved hp hsub, bridgeS2C_of_sub_reserved hp hsub]
      rfl
    · rw [bridgeS2C_of_hostCmd hp hsub, bridgeS2C_of_hostCmd hp hsub]
      rfl
  | unknown why =>
    refine .inl fun ok => ?_
    rw [bridgeS2C_of_unknown hp, bridgeS2C_of_unknown hp]
    rfl

/-- Everything an instruction can do with the transmit result: nothing, or pass it on. -/
theorem exec_withTxOk_cases (i : Instr) (s : State) :
    (∃ u, ∀ ok, exec i (withTxOk s ok) = .next (withTxOk u ok)) ∨
    ∃ u, ∀ ok, exec i (withTxOk s ok) = .next ((withTxOk u ok).respond (.s2c (.sent ok))) := by
  by_cases hpayload : ∃ p, encode s.params i = .payload p
  · obtain ⟨p, hp⟩ := hpayload
    have hexec (ok : Bool) : exec i (withTxOk s ok) = .next (bridgeS2C p (withTxOk s ok)) :=
      exec_of_encode_payload hp
    rcases bridgeS2C_withTxOk p s with h | ⟨u, h⟩
    · exact .inl ⟨_, fun ok => (hexec ok).trans (congrArg _ (h ok))⟩
    · exact .inr ⟨u, fun ok => (hexec ok).trans (congrArg _ (h ok))⟩
  · obtain ⟨u, hu⟩ := exec_total i s
    exact .inl ⟨u, exec_withTxOk (not_exists.mp hpayload) hu⟩

/-- Settles O56. -/
theorem transmitResultOnlyPassedOn : Obligations.TransmitResultOnlyPassedOn := by
  intro s t f i ht hf
  rcases exec_withTxOk_cases i s with ⟨u, h⟩ | ⟨u, h⟩
  · cases ht.symm.trans (h true)
    cases hf.symm.trans (h false)
    exact ⟨rfl, .inr rfl⟩
  · cases ht.symm.trans (h true)
    cases hf.symm.trans (h false)
    exact ⟨rfl, .inl ⟨rfl, rfl⟩⟩

end Sys2Proof.TranslatorProofs
end

section
/-! PROOFS. Reset against power-on: the whole effect of `RST` (R170), and why no other instruction lowers a
counter. -/

namespace Sys2Proof.ResetProofs

open Sys2Proof.Machine Sys2Proof.Safety Sys2Proof.StateProofs

/-- The whole effect of `RST` (R170); that it returns nothing and leaves the rest alone is log entry 13. -/
theorem exec_rst (s : State) : exec .rst s = .next
    { s with
      rxBuf := [], cntOverflow := 0, cntChecksum := 0, cntShort := 0, cntUnknown := 0, result := none } := rfl

/-- Of the three movements of a counter only the clearing lowers it: counting an event saturates (R14). -/
theorem cleared_of_count_lt {cleared : Prop} {s t : State} {c : Counter} (hm : Moves cleared s t)
    (hfall : t.count c < s.count c) : cleared := by
  rcases hm.count c with hstays | hcounts | ⟨hcleared, -⟩
  · exact absurd hstays hfall.ne
  · exact absurd (hcounts ▸ satInc_ge s.params.cntW (s.count c)) (Nat.not_le_of_lt hfall)
  · exact hcleared

/-- Settles O10: `RST` writes the values of power-on, and it alone clears a counter (`exec_moves`). -/
theorem rstClearsBufferAndCounters : Obligations.RstClearsBufferAndCounters :=
  fun s => ⟨exec_rst s, rfl, resetWith_count s.params,
    fun _ _ _ hexec hfall => cleared_of_count_lt (exec_moves hexec) hfall⟩

end Sys2Proof.ResetProofs
end
